-- ==== Sys2Proof/Word.lean ====
section
/-! DEFINITION. The widths of SBR: the bit, the byte, the position, the two word formats. -/

namespace Sys2Proof

/-- A bit, 0 or 1 (R9): `true` is 1. -/
abbrev Bit := Bool

/-- A byte, an integer in [0,255] (R9). -/
abbrev Byte := BitVec 8

/-- A position in [0,127]: the 7-bit field of a position word (R7 `POS_BITS`, R51). -/
abbrev Pos := BitVec 7

/-- A wire word, format W16: payload in bits 15..8, checksum in bits 7..0 (R50). -/
abbrev Word16 := BitVec 16

/-- A command word, format CMD32: opcode in bits 31..28, operand in bits 27..0 (R61). -/
abbrev Word32 := BitVec 32

end Sys2Proof
end

