-- ==== Sys2Proof/Machine/Session.lean ====
section
/-! DEFINITION. The session as plain data: the elements of 10_state.md R10, on which the parameters of
00_scope.md R8 may depend. -/

namespace Sys2Proof.Machine

/-- The buffer's bytes: (address, byte) cells in canonical form (`Memory.wf`). A byte that is not
listed is `0x00` (R11, R24, D5); which bytes exist is said by `BLEN`, not by the list (log 6). -/
abbrev Memory := List Host.Cell

/-- The output assembly `OUT`: 128 entries indexed by position (R16). -/
abbrev OutTable := Vector (Option Byte) 128

/-- An interpretation context (R17): `CUR` (R14), `BASE` (R15) and `OUT` (R16). `MAXREC` is computed
(`Context.maxRec`), as R16 allows. -/
structure Context where
  /-- `CUR`, the pending position; `none` is D00's "unknown". -/
  cur : Option Pos
  /-- `BASE`, the continuation base. -/
  base : Option Pos
  /-- `OUT`, the output assembly. -/
  out : OutTable
deriving DecidableEq, Repr

/-- The elements of R10, without the model's own fields of `State`: what a session is. -/
structure Session where
  /-- `BUF` (R11). -/
  buf : Memory
  /-- `BLEN` (R11). -/
  blen : Nat
  /-- `bitIndex` (R12). -/
  bitIndex : Nat
  /-- `alignAttempts` (R13). -/
  alignAttempts : Nat
  /-- `CUR`, `BASE`, `OUT` (R14 to R17). -/
  ctx : Context
deriving DecidableEq, Repr

end Sys2Proof.Machine
end

