-- ==== Sys2Proof/Config.lean ====
section
/-! DEFINITION. What an implementation of SBR fixes: the named parameters of 00_scope.md R8, with the
values the spec takes. They are not state (R18) and never change (R21). -/

namespace Sys2Proof

/-- `CMD_IDX_BITS`, the widths in bits of the index fields of a command word (R8, D1). -/
structure CmdIdxBits where
  /-- The bit index of `GETBIT` and `SETBIT`. -/
  index : Nat
  /-- The byte offset of `SHIFTWIN`. -/
  offset : Nat
  /-- The length of `DECODE`. -/
  length : Nat
deriving DecidableEq, Repr

/-- The parameters of R8. -/
structure Params where
  /-- `BUF_CAP`, the capacity of `BUF` in bytes; `none` is unbounded (R8, R37, D7). -/
  bufCap : Option Nat
  /-- `IDX_W`, the width of `bitIndex` in bits; `none` is unbounded (R8, R12, D7). -/
  idxW : Option Nat
  /-- `ATT_W`, the width of `alignAttempts` in bits; `none` is unbounded (R8, R13, D7). -/
  attW : Option Nat
  /-- `KEEP_BASE`: whether a consumed value word keeps the continuation base (R8, R15, D12). -/
  keepBase : Bool
  /-- `STREAM_LEN`: the input length that the sanity bound sees in the stream path, from the session at
  the moment the word is checked (R8, R100 (b), D9). -/
  streamLen : Machine.Session → Nat
  /-- `REPL`: the symbol standing for an unresolved position (R8, R107, D24). -/
  repl : Option Byte
  /-- `CMD_IDX_BITS`: the widths of the index fields of a command word (R8, R63, D1). -/
  cmdIdxBits : CmdIdxBits

/-- The values taken by R8 and 92_eei_decisions.md: unbounded buffer and counters, `KEEP_BASE = 1`,
`STREAM_LEN = bitIndex / 8`, `REPL` the unresolved marker, `CMD_IDX_BITS` 27, 23 and 28. -/
def Config.params : Params where
  bufCap := none
  idxW := none
  attW := none
  keepBase := true
  streamLen := fun s => s.bitIndex / 8
  repl := none
  cmdIdxBits := { index := 27, offset := 23, length := 28 }

/-- `MAX_MSG`, the longest message in bytes (R7). -/
abbrev Config.maxMsg : Nat := 128

/-- `SANITY_DIV`, the divisor of the sanity bound (R7, R100). -/
abbrev Config.sanityDiv : Nat := 4

/-- `WORD_BITS`, the bits of a wire word (R7). -/
abbrev Config.wordBits : Nat := 16

/-- The bits of a command word's `operand` field (R61). -/
abbrev Config.operandBits : Nat := 28

/-- The index fields have room in the operand: `SETBIT`'s beside `v = cmd[27]`, `SHIFTWIN`'s beside
`n = cmd[4:0]`, `DECODE`'s alone (R63; D1: the widths taken are "what fits in 32 bits"). -/
def Params.portFits (P : Params) : Bool :=
  decide (P.cmdIdxBits.index + 1 ≤ Config.operandBits) &&
  (decide (P.cmdIdxBits.offset + 5 ≤ Config.operandBits) &&
    decide (P.cmdIdxBits.length ≤ Config.operandBits))

end Sys2Proof
end

