-- ==== Sys2Proof/Syntax.lean ====
section
/-! DEFINITION. The instructions of SBR, one constructor for each row of spec/opcode_table.json, and
the two encoded forms they have: beats on the command port and a word on the wire. -/

namespace Sys2Proof

/-- The instructions of both layers (R2). The operands are those of R63 (commands) and of R51 and R52
(wire words); an index is the natural number "the semantics use" (R63), whose width on the port is
`CMD_IDX_BITS`. `ENCODE` and `DECODE` carry their data beats (R65), whose count is their length field. -/
inductive Instr where
  /-- `CLEAR` (R124). -/
  | clear
  /-- `FEED bit` (R115). -/
  | feed (bit : Bit)
  /-- `STATUS` (R125). -/
  | status
  /-- `READMSG` (R108). -/
  | readmsg
  /-- `REV b` (R70). -/
  | rev (b : Byte)
  /-- `CSUM b` (R71). -/
  | csum (b : Byte)
  /-- `VERIFY payload, checksum` (R72). -/
  | verify (payload checksum : Byte)
  /-- `CLASSIFY payload` (R73). -/
  | classify (payload : Byte)
  /-- `GETBIT i` (R81). -/
  | getbit (i : Nat)
  /-- `SETBIT i, v` (R82). -/
  | setbit (i : Nat) (v : Bit)
  /-- `SHIFTWIN a, n` (R83). -/
  | shiftwin (a : Nat) (n : BitVec 5)
  /-- `READBITS` (R84). -/
  | readbits
  /-- `ENCODE m[0] .. m[len-1]` (R90). -/
  | encode (msg : List Byte)
  /-- `DECODE d[0] .. d[L-1]` (R104). -/
  | decode (input : List Byte)
  /-- `POSW`, a position word, its checksum field as received (R51, R99). -/
  | posw (position : Pos) (checksum : Byte)
  /-- `VALW`, a value word, its checksum field as received (R52, R101). -/
  | valw (value : Pos) (checksum : Byte)
deriving DecidableEq, Repr

/-- One transfer on the command port (R61): a command word, or a data beat of one byte. -/
inductive PortBeat where
  /-- A 32-bit command word. -/
  | cmd (w : Word32)
  /-- A data beat. -/
  | data (b : Byte)
deriving DecidableEq, Repr

/-- An instruction's encoded form: the beats of a command (format CMD32, R61) or a wire word
(format W16, R50). -/
inductive Code where
  /-- A command word and its data beats, in the order in which they are presented. -/
  | port (beats : List PortBeat)
  /-- A 16-bit wire word. -/
  | wire (w : Word16)
deriving DecidableEq, Repr

end Sys2Proof
end

