-- ==== Sys2Proof/WellFormed.lean ====
section
/-! DEFINITION. Which instruction terms have an encoding: the operands that are not bounded by their type
fit the fields of R63. The widths of the index fields are the parameter `CMD_IDX_BITS` (R8). -/

namespace Sys2Proof

/-- The bit index of `GETBIT` and `SETBIT` (R63: `i < 2^27` with the width taken). -/
def indexOk (P : Params) (i : Nat) : Bool := decide (i < 2 ^ P.cmdIdxBits.index)

/-- The byte offset of `SHIFTWIN` (R63: `a < 2^23` with the width taken). -/
def offsetOk (P : Params) (a : Nat) : Bool := decide (a < 2 ^ P.cmdIdxBits.offset)

/-- `ENCODE`'s length field is 9 bits (R63: `len < 512`). A length above 128 is well formed and earns
`MessageTooLong`. -/
def encodeLenOk (msg : List Byte) : Bool := decide (msg.length < 2 ^ 9)

/-- `DECODE`'s length field (R63: `L < 2^28` with the width taken). -/
def decodeLenOk (P : Params) (input : List Byte) : Bool :=
  decide (input.length < 2 ^ P.cmdIdxBits.length)

/-- An instruction that the encodings of R63, R51 and R52 can carry. -/
def Instr.wfFor (P : Params) : Instr → Bool
  | .clear => true
  | .feed _ => true
  | .status => true
  | .readmsg => true
  | .rev _ => true
  | .csum _ => true
  | .verify _ _ => true
  | .classify _ => true
  | .getbit i => indexOk P i
  | .setbit i _ => indexOk P i
  | .shiftwin a _ => offsetOk P a
  | .readbits => true
  | .encode msg => encodeLenOk msg
  | .decode input => decodeLenOk P input
  | .posw _ _ => true
  | .valw _ _ => true

/-- The same with the parameters taken. -/
def Instr.wf (i : Instr) : Bool := i.wfFor Config.params

end Sys2Proof
end

