-- ==== Sys2Proof/Decode.lean ====
section
/-! DEFINITION. The decoders of both layers, total on every input and rejecting by name, the encoder
written from the same tables (30_encoding.md), and the opcode table as data. -/

namespace Sys2Proof

/-! ## The wire layer -/

/-- The instruction a wire word stands for. The kind is payload bit 7 alone and is decided before and
independently of validity (R55), so every one of the 65536 words is a position word (R51) or a value
word (R52); the checksum field is carried as received (R56). -/
def decodeWord (w : Word16) : Instr :=
  if w.getLsbD 15 then .posw (w.extractLsb' 8 7) (w.extractLsb' 0 8)
  else .valw (w.extractLsb' 8 7) (w.extractLsb' 0 8)

/-! ## The command layer -/

/-- What a command word says by itself: a whole instruction, or the number of data beats that an
`ENCODE` or a `DECODE` takes (R63, R65). -/
inductive Cmd where
  /-- A command without data beats. -/
  | whole (i : Instr)
  /-- `ENCODE` with its `len` field. -/
  | encode (len : Nat)
  /-- `DECODE` with its `L` field. -/
  | decode (len : Nat)
deriving DecidableEq, Repr

/-- `none` unless a must-be-zero field is zero (R63: "Bits not listed must be zero"; R64). -/
def whenZero {n : Nat} (mbz : BitVec n) (c : Cmd) : Option Cmd :=
  if mbz = 0 then some c else none

/-- An index field of `width` bits at the low end of the bits it has room in: the bits of the room above
it must be zero (R63: "Bits not listed must be zero"), and the field is zero-extended (R63). -/
def indexField {n : Nat} (room : BitVec n) (width : Nat) (c : Nat → Cmd) : Option Cmd :=
  if room.toNat < 2 ^ width then some (c room.toNat) else none

/-- A command word by R62 and R63; `none` is a word that matches no row (R64). The widths of the index
fields are `CMD_IDX_BITS` (R8); the fields beside them keep their places (log 12). -/
def decodeCmdFor (P : Params) (w : Word32) : Option Cmd :=
  match (w.extractLsb' 28 4).toNat with
  | 0x0 => whenZero (w.extractLsb' 0 28) (.whole .clear)
  | 0x1 => whenZero (w.extractLsb' 1 27) (.whole (.feed (w.getLsbD 0)))
  | 0x2 => whenZero (w.extractLsb' 0 28) (.whole .status)
  | 0x3 => whenZero (w.extractLsb' 0 28) (.whole .readmsg)
  | 0x4 => whenZero (w.extractLsb' 8 20) (.whole (.rev (w.extractLsb' 0 8)))
  | 0x5 => whenZero (w.extractLsb' 8 20) (.whole (.csum (w.extractLsb' 0 8)))
  | 0x6 => whenZero (w.extractLsb' 16 12)
      (.whole (.verify (w.extractLsb' 8 8) (w.extractLsb' 0 8)))
  | 0x7 => whenZero (w.extractLsb' 8 20) (.whole (.classify (w.extractLsb' 0 8)))
  | 0x8 => indexField (w.extractLsb' 0 28) P.cmdIdxBits.index fun i => .whole (.getbit i)
  | 0x9 => indexField (w.extractLsb' 0 27) P.cmdIdxBits.index fun i =>
      .whole (.setbit i (w.getLsbD 27))
  | 0xA => indexField (w.extractLsb' 5 23) P.cmdIdxBits.offset fun a =>
      .whole (.shiftwin a (w.extractLsb' 0 5))
  | 0xB => whenZero (w.extractLsb' 0 28) (.whole .readbits)
  | 0xC => whenZero (w.extractLsb' 9 19) (.encode (w.extractLsb' 0 9).toNat)
  | 0xD => indexField (w.extractLsb' 0 28) P.cmdIdxBits.length .decode
  | _ => none

/-- The same with the parameters taken. -/
def decodeCmd (w : Word32) : Option Cmd := decodeCmdFor Config.params w

/-- How many data beats a command takes (R65). -/
def Cmd.beats : Cmd → Nat
  | .whole _ => 0
  | .encode len => len
  | .decode len => len

/-- The next `n` beats, when they are there and all are data beats, and what follows them. -/
def takeBeats : Nat → List PortBeat → Option (List Byte × List PortBeat)
  | 0, rest => some ([], rest)
  | n + 1, .data b :: rest => (takeBeats n rest).map fun p => (b :: p.1, p.2)
  | _ + 1, _ => none

/-- What stands at the front of the command port. -/
inductive Fetched where
  /-- Nothing: SBR is idle (R61, R145). -/
  | idle
  /-- A command whose data beats have not all been presented: it cannot complete yet (log 2). -/
  | waiting
  /-- A data beat where a command word is due (log 3). -/
  | stray (b : Byte)
  /-- A command word that matches no row of R63 (R64). -/
  | bad (w : Word32)
  /-- A whole instruction, and the beats after it. -/
  | instr (i : Instr) (rest : List PortBeat)
deriving DecidableEq, Repr

/-- The decoder of the command port (R61 to R65), total on every list of beats. -/
def decodePortFor (P : Params) : List PortBeat → Fetched
  | [] => .idle
  | .data b :: _ => .stray b
  | .cmd w :: rest =>
    match decodeCmdFor P w with
    | none => .bad w
    | some (.whole i) => .instr i rest
    | some (.encode len) =>
      match takeBeats len rest with
      | some (msg, rest') => .instr (.encode msg) rest'
      | none => .waiting
    | some (.decode len) =>
      match takeBeats len rest with
      | some (input, rest') => .instr (.decode input) rest'
      | none => .waiting

/-- The same with the parameters taken: the decoder of the machine. -/
def decodePort (beats : List PortBeat) : Fetched := decodePortFor Config.params beats

/-- The instruction that a code stands for, when it is exactly one. -/
def decodeCodeFor (P : Params) : Code → Option Instr
  | .wire w => some (decodeWord w)
  | .port beats =>
    match decodePortFor P beats with
    | .instr i [] => some i
    | _ => none

/-- The same with the parameters taken. -/
def decodeCode (c : Code) : Option Instr := decodeCodeFor Config.params c

/-! ## The encoder -/

/-- A command word alone. -/
def oneWord (w : Word32) : Code := .port [.cmd w]

/-- A command word and its data beats, data byte 0 first (R65). -/
def withBeats (w : Word32) (bs : List Byte) : Code := .port (.cmd w :: bs.map .data)

/-- The encoding of an instruction, from the operand layouts of R63 and the word formats of R51 and R52.
An index is zero-extended to the operand bits it has room in, so the encoding of a well-formed instruction
does not depend on `CMD_IDX_BITS`. -/
def encode : Instr → Code
  | .clear => oneWord (0x0#4 ++ 0#28)
  | .feed bit => oneWord (0x1#4 ++ 0#27 ++ BitVec.ofBool bit)
  | .status => oneWord (0x2#4 ++ 0#28)
  | .readmsg => oneWord (0x3#4 ++ 0#28)
  | .rev b => oneWord (0x4#4 ++ 0#20 ++ b)
  | .csum b => oneWord (0x5#4 ++ 0#20 ++ b)
  | .verify payload checksum => oneWord (0x6#4 ++ 0#12 ++ payload ++ checksum)
  | .classify payload => oneWord (0x7#4 ++ 0#20 ++ payload)
  | .getbit i => oneWord (0x8#4 ++ BitVec.ofNat 28 i)
  | .setbit i v => oneWord (0x9#4 ++ BitVec.ofBool v ++ BitVec.ofNat 27 i)
  | .shiftwin a n => oneWord (0xA#4 ++ BitVec.ofNat 23 a ++ n)
  | .readbits => oneWord (0xB#4 ++ 0#28)
  | .encode msg => withBeats (0xC#4 ++ 0#19 ++ BitVec.ofNat 9 msg.length) msg
  | .decode input => withBeats (0xD#4 ++ BitVec.ofNat 28 input.length) input
  | .posw position checksum => .wire (1#1 ++ position ++ checksum)
  | .valw value checksum => .wire (0#1 ++ value ++ checksum)

/-- The beats of a command; a wire word has none (it reaches SBR bit by bit, R30). -/
def Code.beats : Code → List PortBeat
  | .port beats => beats
  | .wire _ => []

/-! ## The opcode table as data -/

/-- One row of the table of R63: a word `w` is of the row when `w AND mask = pattern`. -/
structure CmdRow where
  mnemonic : String
  mask : Word32
  pattern : Word32
deriving DecidableEq, Repr

/-- The 14 rows of R63, in its order; the masks are those of the `CMD_IDX_BITS` taken. -/
def cmdRows : List CmdRow :=
  [ ⟨"CLEAR", 0xFFFFFFFF, 0x00000000⟩, ⟨"FEED", 0xFFFFFFFE, 0x10000000⟩,
    ⟨"STATUS", 0xFFFFFFFF, 0x20000000⟩, ⟨"READMSG", 0xFFFFFFFF, 0x30000000⟩,
    ⟨"REV", 0xFFFFFF00, 0x40000000⟩, ⟨"CSUM", 0xFFFFFF00, 0x50000000⟩,
    ⟨"VERIFY", 0xFFFF0000, 0x60000000⟩, ⟨"CLASSIFY", 0xFFFFFF00, 0x70000000⟩,
    ⟨"GETBIT", 0xF8000000, 0x80000000⟩, ⟨"SETBIT", 0xF0000000, 0x90000000⟩,
    ⟨"SHIFTWIN", 0xF0000000, 0xA0000000⟩, ⟨"READBITS", 0xFFFFFFFF, 0xB0000000⟩,
    ⟨"ENCODE", 0xFFFFFE00, 0xC0000000⟩, ⟨"DECODE", 0xF0000000, 0xD0000000⟩ ]

/-- Whether a command word is of a row. -/
def CmdRow.matches (r : CmdRow) (w : Word32) : Bool := w &&& r.mask == r.pattern

/-- An instruction's mnemonic, as spec/opcode_table.json spells it. -/
def Instr.mnemonic : Instr → String
  | .clear => "CLEAR"
  | .feed _ => "FEED"
  | .status => "STATUS"
  | .readmsg => "READMSG"
  | .rev _ => "REV"
  | .csum _ => "CSUM"
  | .verify _ _ => "VERIFY"
  | .classify _ => "CLASSIFY"
  | .getbit _ => "GETBIT"
  | .setbit _ _ => "SETBIT"
  | .shiftwin _ _ => "SHIFTWIN"
  | .readbits => "READBITS"
  | .encode _ => "ENCODE"
  | .decode _ => "DECODE"
  | .posw _ _ => "POSW"
  | .valw _ _ => "VALW"

/-- The mnemonic of the row a command word was decoded by. -/
def Cmd.mnemonic : Cmd → String
  | .whole i => i.mnemonic
  | .encode _ => "ENCODE"
  | .decode _ => "DECODE"

/-! ## Table words -/

/-- A command word as the port carries it, followed by as many zero data beats as it asks for. -/
def portLayout (w : Word32) : List PortBeat :=
  .cmd w :: List.replicate ((decodeCmd w).elim 0 Cmd.beats) (.data 0)

/-- The instruction the decoder reads from a word of the opcode table: 32 bits are a command word
(its data beats zero), 16 bits are a wire word. -/
def decodeTableWord (nbits w : Nat) : Option Instr :=
  match nbits with
  | 32 => decodeCode (.port (portLayout (BitVec.ofNat 32 w)))
  | 16 => decodeCode (.wire (BitVec.ofNat 16 w))
  | _ => none

end Sys2Proof
end

