-- ==== Sys2Proof/Machine/State.lean ====
section
/-! DEFINITION. The state of SBR as plain data (10_state.md), what a command hands out (responses and
events), and the reasons for which a step stops. -/

namespace Sys2Proof.Machine

/-! ## What a command hands out -/

/-- The four conditions of R130. -/
inductive Condition where
  /-- Encode-time hard failure: the message has more than 128 bytes (R91). -/
  | messageTooLong
  /-- A word whose checksum is wrong and that is not trusted (R98, R118). -/
  | checksumMismatch
  /-- An accepted position word whose position is implausible for the input length (R100). -/
  | positionOverflow
  /-- A valid value word with no pending position (R102). -/
  | unsolicitedValue
deriving DecidableEq, Repr

/-- The kind of a resolved field (R140). -/
inductive FieldKind where
  | position
  | character
deriving DecidableEq, Repr

/-- A symbol of a message: a resolved byte, or `none` for an unresolved position (R107). -/
abbrev Sym := Option Byte

/-- An element of a command's event list: the three observer events of R140, and the diagnostic of
R132, which is on a channel of its own (`Event.isDiagnostic`). -/
inductive Event where
  /-- The bit fed. -/
  | bitObserved (bit : Bit)
  /-- A position accepted or a content byte recorded; `value` is the position or the byte, and
  `payload`, `checksum` are the raw word as received. -/
  | fieldResolved (kind : FieldKind) (value payload checksum : Byte)
  /-- The message as it stands. -/
  | messageUpdated (msg : List Sym)
  /-- A recoverable condition and the word that met it. -/
  | diagnostic (c : Condition) (payload checksum : Byte)
deriving DecidableEq, Repr

/-- The status view of R20. -/
structure StatusView where
  bitIndex : Nat
  alignAttempts : Nat
  blen : Nat
  cur : Option Pos
  base : Option Pos
  maxRec : Option Pos
deriving DecidableEq, Repr

/-- The response of a command (R65). The counts of R65 are the lengths of the lists. -/
inductive Response where
  /-- Of `CLEAR`, `FEED`, `SETBIT`, `SHIFTWIN`, and of a wire word. -/
  | empty
  /-- Of `STATUS`. -/
  | status (v : StatusView)
  /-- Of `READMSG` and `DECODE`. -/
  | message (msg : List Sym)
  /-- Of `REV` and `CSUM`. -/
  | byte (b : Byte)
  /-- Of `VERIFY` and `GETBIT`. -/
  | bit (b : Bit)
  /-- Of `CLASSIFY`. -/
  | kind (isPos : Bit) (pos : Pos)
  /-- Of `READBITS`. -/
  | bits (bs : List Bit)
  /-- Of `ENCODE`. -/
  | bytes (bs : List Byte)
  /-- The error of R6 (b), with the value R131 records; only `ENCODE` has one. -/
  | error (c : Condition) (recorded : Nat)
deriving DecidableEq, Repr

/-! ## The state -/

/-- A fresh interpretation context (R17, R24). -/
def Context.fresh : Context where
  cur := none
  base := none
  out := Vector.replicate 128 none

/-- The state: the eight elements of R10 (with `MAXREC` computed from `OUT`), and three fields of the
model's own for the two sides of the command port: what the host has presented (log 1) and what the
step that led here handed out, which the next step drops (R18, log 4). -/
structure State where
  /-- `BUF` (R11). -/
  buf : Memory
  /-- `BLEN`, the buffer's logical length in bits (R11). -/
  blen : Nat
  /-- `bitIndex`, the bit-write cursor (R12). -/
  bitIndex : Nat
  /-- `alignAttempts`, the consecutive failed checks (R13). -/
  alignAttempts : Nat
  /-- The session's interpretation context: `CUR`, `BASE`, `OUT` (R14 to R17). -/
  ctx : Context
  /-- The model's own: beats presented on the command port and not yet taken (R61, log 1). -/
  port : List PortBeat
  /-- The model's own: the response of the command that the step before completed, empty when it
  completed none (R6 (a), R18, log 4). -/
  response : Response
  /-- The model's own: the events of that command, in order, none when there was none (R6 (a), R18, R141,
  log 4). -/
  events : List Event
deriving DecidableEq, Repr

/-- The machine right after reset (R24, R150). The model's own three fields are empty (log 1, log 4). -/
def State.reset : State where
  buf := []
  blen := 0
  bitIndex := 0
  alignAttempts := 0
  ctx := Context.fresh
  port := []
  response := .empty
  events := []

/-! ## Stops -/

/-- SBR has no fault: "None of D00's four conditions is a *fault*" and there is no stuck state (R146).
No constructor, so no step can stop with one (log 18). -/
inductive Fault where
deriving DecidableEq, Repr

/-- Why a command is refused (R6 (c)): its state is unchanged and it has no response and no event. -/
inductive Refusal where
  /-- Raised by an arm of `exec` that has no meaning yet; no arm does. Safe. -/
  | notModelled (mnemonic : String)
  /-- `BadCommand`, raised by the port: the command word matches no row of R63 (R64, R138). Safe. -/
  | badCommand
  /-- `BadIndex`, raised by `GETBIT` with `i >= BLEN` and by `SHIFTWIN` with `a + 2 > NBYTES`
  (R36, R138). Safe. -/
  | badIndex
  /-- `Full`, raised by `FEED` and `SETBIT` when a finite `BUF_CAP` would be exceeded (R37, R138);
  never with the parameters taken. Safe. -/
  | full
  /-- Raised by `FEED` when a finite `IDX_W` or `ATT_W` would overflow (D7, U5); never with the
  parameters taken (log 9). Safe. -/
  | counterLimit
  /-- Raised by the port: a data beat stands where a command word is due, a case for which the spec
  gives no effect (log 3). Safe. -/
  | strayBeat
deriving DecidableEq, Repr

end Sys2Proof.Machine
end

