-- ==== Sys2Proof/Machine/Operands.lean ====
section
/-! DEFINITION. The pure functions over bytes and words (40_bit_utilities.md), the byte and bit orders
of sequences (R33, R85), frames (R53), and the packing of responses (R65). -/

namespace Sys2Proof.Machine

/-! ## Bit utilities -/

/-- `rev(b)`: the byte `r` with `r[k] = b[7-k]` (R70). -/
def rev (b : Byte) : Byte := b.reverse

/-- `csum(b) = rev(~8 b)`, the complement taken on 8 bits (R71). -/
def csum (b : Byte) : Byte := rev (~~~b)

/-- `verify(p, c) = (c = csum(p))` (R72). -/
def verify (payload checksum : Byte) : Bool := checksum == csum payload

/-- `isPos(p) = (p[7] = 1)` (R73). -/
def isPos (payload : Byte) : Bool := payload.getLsbD 7

/-- `posOf(p) = p[6:0]` (R56, R73). -/
def posOf (payload : Byte) : Pos := payload.extractLsb' 0 7

/-- The payload of the position word for `p`: `0x80 | p` (R51). -/
def posPayload (p : Pos) : Byte := 1#1 ++ p

/-- The payload of the value word whose value field is `v`: the content byte, top bit clear (R52). -/
def valPayload (v : Pos) : Byte := 0#1 ++ v

/-- The position table index of a position (R16: `OUT` has 128 entries). -/
def posIdx (p : Pos) : Fin 128 := ⟨p.toNat, p.isLt⟩

/-- A position as the `value` of a `fieldResolved` event (R140, D30). -/
def posByte (p : Pos) : Byte := p.zeroExtend 8

/-! ## Orders -/

/-- Bit `j` of a byte in buffer order: bit 0 is the most significant (R31). -/
def bitOfByte (b : Byte) (j : Nat) : Bit := b.getLsbD (7 - j)

/-- The eight bits of a byte in buffer order (R31, R33). -/
def byteBits (b : Byte) : List Bit := (List.range 8).map (bitOfByte b)

/-- `bitsOf(B)`: the bytes in order, each most significant bit first (R33, R85). -/
def bitsOf (bs : List Byte) : List Bit := bs.flatMap byteBits

/-- The two bytes of a window as a 16-bit value, big-endian (R32). -/
def wordOf (hi lo : Byte) : Word16 := hi ++ lo

/-- The first byte of a window (R32, R50). -/
def hiByte (w : Word16) : Byte := w.extractLsb' 8 8

/-- The second byte of a window (R32, R50). -/
def loByte (w : Word16) : Byte := w.extractLsb' 0 8

/-- The frame of message byte `i` with value `v` (R53, R90). -/
def frame (i : Nat) (v : Byte) : List Byte :=
  let p := posPayload (BitVec.ofNat 7 i)
  [p, csum p, v, csum v]

/-- The frames of the bytes `msg` from position `i` on, in order (R90). -/
def framesFrom : Nat → List Byte → List Byte
  | _, [] => []
  | i, v :: msg => frame i v ++ framesFrom (i + 1) msg

/-! ## Packing of responses -/

/-- A symbol in 9 bits, `resolved` above `byte`, `byte = 0` when unresolved (R65). -/
def packSym : Sym → BitVec 9
  | some b => 1#1 ++ b
  | none => 0#9

/-- An optional position in 8 bits, a valid bit above 7 bits (R65); zero when absent. -/
def packPos : Option Pos → BitVec 8
  | some p => 1#1 ++ p
  | none => 0#8

/-- The response of `CLASSIFY` in 8 bits, `isPos` above `pos` (R65). -/
def packKind (isPos : Bit) (pos : Pos) : BitVec 8 := BitVec.ofBool isPos ++ pos

end Sys2Proof.Machine
end

