-- ==== Sys2Proof/Machine/Flags.lean ====
section
/-! DEFINITION. SBR has no status flags and no condition codes (R19). What a processor's flags would
say travels in the events of a command: the conditions of R130 with their codes, and the channels. -/

namespace Sys2Proof.Machine

/-- The condition's code (R131). -/
def Condition.code : Condition → Nat
  | .messageTooLong => 1
  | .checksumMismatch => 2
  | .positionOverflow => 3
  | .unsolicitedValue => 4

/-- Whether a condition is recoverable and reported as a diagnostic, or the one hard error (R130). -/
def Condition.isRecoverable : Condition → Bool
  | .messageTooLong => false
  | .checksumMismatch => true
  | .positionOverflow => true
  | .unsolicitedValue => true

/-- Whether an event is on the diagnostic channel; the others are observer events (R132, R140). -/
def Event.isDiagnostic : Event → Bool
  | .bitObserved _ => false
  | .fieldResolved _ _ _ _ => false
  | .messageUpdated _ => false
  | .diagnostic _ _ _ => true

/-- The observer events of a command, without the diagnostic channel (R132, R140). -/
def observerEvents (es : List Event) : List Event := es.filter fun e => !e.isDiagnostic

/-- The diagnostics of a command (R132). -/
def diagnostics (es : List Event) : List Event := es.filter Event.isDiagnostic

end Sys2Proof.Machine
end

