-- ==== Sys2Proof/Machine/Ops.lean ====
section
/-! DEFINITION. The operations that the meanings share: the buffer's memory, bits and windows
(20_memory.md, 41_bit_buffer.md), the output assembly and its read-out (R16, R107), how a command
completes, meets its error or is refused (R6, R135, R138), and the command port (R61). -/

namespace Sys2Proof.Machine

/-! ## Memory -/

/-- The byte at an address; an unlisted byte is `0x00` (R24, D5). -/
def Memory.read : Memory → Nat → Byte
  | [], _ => 0
  | (k, v) :: m, a => if k = a then v else if a < k then 0 else Memory.read m a

/-- Stores a byte and keeps the canonical form: storing `0x00` removes the entry. -/
def Memory.write : Memory → Nat → Byte → Memory
  | [], a, v => if v = 0 then [] else [(a, v)]
  | (k, w) :: m, a, v =>
    if a < k then (if v = 0 then (k, w) :: m else (a, v) :: (k, w) :: m)
    else if a = k then (if v = 0 then m else (a, v) :: m)
    else (k, w) :: Memory.write m a v

/-- Addresses from `lo` on, strictly rising, and no entry equal to what an unlisted byte reads as. -/
def Memory.wfFrom : Nat → Memory → Bool
  | _, [] => true
  | lo, (k, v) :: m => decide (lo ≤ k) && (decide (v ≠ 0) && Memory.wfFrom (k + 1) m)

/-- The canonical form. -/
def Memory.wf (m : Memory) : Bool := Memory.wfFrom 0 m

/-- `NBYTES = ceil(BLEN / 8)`, how many bytes a buffer of that logical length holds (R11, R80). -/
def nbytes (blen : Nat) : Nat := (blen + 7) / 8

/-- The bit at a buffer bit index: bit `7 - (i mod 8)` of byte `i div 8` (R31, R80). -/
def Memory.getBit (m : Memory) (i : Nat) : Bit := bitOfByte (Memory.read m (i / 8)) (i % 8)

/-- The mask of a buffer bit inside its byte: `1 << (7 - (i mod 8))` (R82). -/
def bitMask (i : Nat) : Byte := 1#8 <<< (7 - i % 8)

/-- A byte with one buffer bit written (R82). -/
def putBit (b : Byte) (i : Nat) (v : Bit) : Byte :=
  if v then b ||| bitMask i else b &&& (0xFF#8 ^^^ bitMask i)

/-- Writes the bit at a buffer bit index; the other seven bits of its byte stay (R35, R82). -/
def Memory.setBit (m : Memory) (i : Nat) (v : Bit) : Memory :=
  Memory.write m (i / 8) (putBit (Memory.read m (i / 8)) i v)

/-- `MemRead(a, 2)`: the 16-bit big-endian value at a byte offset (R9, R32). -/
def Memory.read16 (m : Memory) (a : Nat) : Word16 :=
  wordOf (Memory.read m a) (Memory.read m (a + 1))

/-- `MemWrite(a, 2, w)`: stores the big-endian image of a 16-bit value (R9, R32). -/
def Memory.write16 (m : Memory) (a : Nat) (w : Word16) : Memory :=
  Memory.write (Memory.write m a (hiByte w)) (a + 1) (loByte w)

/-- `shiftWindowLeft(a, n)`: the window's 16-bit value shifted left, overflow bits lost and zeros
entering from the right; 0 when `n >= 16` (R76 (b), R83). -/
def Memory.shiftWindow (m : Memory) (a n : Nat) : Memory :=
  Memory.write16 m a (Memory.read16 m a <<< n)

/-- The bits of a buffer of logical length `blen`, in increasing bit index (R84, R33). -/
def Memory.bits (m : Memory) (blen : Nat) : List Bit := (List.range blen).map (Memory.getBit m)

/-! ## The session -/

/-- The session of a state: the elements of R10. -/
def State.session (s : State) : Session := ⟨s.buf, s.blen, s.bitIndex, s.alignAttempts, s.ctx⟩

/-! ## The buffer of the session -/

/-- `setBit(i, v)`: writes the bit and extends `BLEN` when the index is at or beyond it; the bits
skipped are 0 because no byte beyond the old length is listed (R80, R82). -/
def State.putBufBit (s : State) (i : Nat) (v : Bit) : State :=
  { s with buf := Memory.setBit s.buf i v, blen := max s.blen (i + 1) }

/-- `shiftWindowLeft(a, n)` on the session's buffer; `BLEN` is unchanged (R83). -/
def State.shiftBufWindow (s : State) (a n : Nat) : State :=
  { s with buf := Memory.shiftWindow s.buf a n }

/-- Step 1 of `FEED`: "Write bit at bitIndex; increment bitIndex." (R115). -/
def State.storeBit (s : State) (bit : Bit) : State :=
  { s.putBufBit s.bitIndex bit with bitIndex := s.bitIndex + 1 }

/-- The byte offset of the window that a check reads, from the incremented `bitIndex` (R117). -/
def windowOffset (bitIndex : Nat) : Nat := bitIndex / 8 - 2

/-- `WOFF`, the byte offset of the window between commands (R117). -/
def State.woff (s : State) : Nat := 2 * (s.bitIndex / Config.wordBits)

/-- A limit of R8, none when unbounded. -/
def within (limit : Option Nat) (n : Nat) : Bool :=
  match limit with
  | none => true
  | some k => decide (n ≤ k)

/-- Whether a counter of the given width holds a value; every value when the width is unbounded. -/
def fitsWidth (width : Option Nat) (n : Nat) : Bool :=
  match width with
  | none => true
  | some w => decide (n < 2 ^ w)

/-! ## The output assembly -/

/-- `OUT[p]` (R16). -/
def Context.outAt (c : Context) (p : Pos) : Option Byte := c.out[posIdx p]

/-- `OUT[p] <- some v` (R101). -/
def Context.record (c : Context) (p : Pos) (v : Byte) : Context :=
  { c with out := c.out.set (posIdx p) (some v) }

/-- The index of the last resolved entry of a list. -/
def lastResolved : List (Option Byte) → Option Nat
  | [] => none
  | x :: xs =>
    match lastResolved xs with
    | some k => some (k + 1)
    | none => if x.isSome then some 0 else none

/-- `MAXREC`: the largest `p` with `OUT[p] != none`, or `none` (R16). -/
def Context.maxRec (c : Context) : Option Pos := (lastResolved c.out.toList).map (BitVec.ofNat 7)

/-- `Materialise(OUT)`: the symbols of positions `0 .. MAXREC`, `REPL` standing for an unresolved
position; the empty sequence when nothing is recorded (R107, R8). -/
def materialise (P : Params) (out : OutTable) : List Sym :=
  match lastResolved out.toList with
  | none => []
  | some m => (out.toList.take (m + 1)).map fun o => o.or P.repl

/-! ## How a command ends -/

/-- Outcome (a) of R6: a next state with the command's response and its events. Nothing of the
outputs before it is kept (R18). -/
def State.done (s : State) (r : Response) (es : List Event) : Host.Outcome State Fault Refusal :=
  .next { s with response := r, events := es }

/-- Outcome (b) of R6, taking the one hard condition: no context is saved, control goes nowhere, no
state changes; the response is the error with the value it records, and there is no event
(R91, R131, R135). -/
def State.raise (s : State) (c : Condition) (recorded : Nat) : Host.Outcome State Fault Refusal :=
  s.done (.error c recorded) []

/-- Taking a recoverable condition: the diagnostic is appended to the command's events and the
command goes on; it changes no state by itself (R9 `diag`, R132, R135). -/
def diag (c : Condition) (payload checksum : Byte) : List Event := [.diagnostic c payload checksum]

/-- The status view (R20, R125). -/
def State.statusView (s : State) : StatusView where
  bitIndex := s.bitIndex
  alignAttempts := s.alignAttempts
  blen := s.blen
  cur := s.ctx.cur
  base := s.ctx.base
  maxRec := s.ctx.maxRec

/-! ## The command port -/

/-- What stands at the front of the port (R61). -/
def State.fetched (s : State) : Fetched := decodePort s.port

/-- The outputs of the command before are dropped: they are not state and are not kept across commands
(R18, log 4). Every step begins with this. -/
def State.dropOutputs (s : State) : State := { s with response := .empty, events := [] }

/-- The beats of a command are taken from the port (R61, R65), the outputs before it dropped (R18). -/
def State.taking (s : State) (rest : List PortBeat) : State := { s.dropOutputs with port := rest }

/-- The state from which a run goes on after a refused command: its beats leave the port, the session is
unchanged and there is no output (R6 (c), R18, R138); of a `BadCommand` only the command word leaves,
"no data beat is consumed" (R64, log 5). -/
def State.afterRefusal (s : State) : State :=
  match s.fetched with
  | .instr _ rest => s.taking rest
  | .bad _ => s.taking s.port.tail
  | .stray _ => s.taking s.port.tail
  | .idle => s.dropOutputs
  | .waiting => s.dropOutputs

/-- A command word, with zero data beats, presented at the front of the port. -/
def State.presentCommand (s : State) (w : Word32) : State :=
  { s with port := portLayout w ++ s.port }

/-- The first fifteen bits of a wire word in the session's window and its last bit presented as a
`FEED`, so that the next step completes the window and checks exactly this word (R115 to R117, log 14). -/
def State.presentWire (s : State) (w : Word16) : State :=
  { s with
    buf := Memory.write16 s.buf s.woff (w &&& 0xFFFE#16)
    bitIndex := 8 * s.woff + 15
    blen := max s.blen (8 * s.woff + 15)
    port := (encode (.feed (w.getLsbD 0))).beats ++ s.port }

end Sys2Proof.Machine
end

