-- ==== Sys2Proof/Machine/Interpret.lean ====
section
/-! DEFINITION. The interpretation step of 43_word_interpretation_and_batch_decoder.md: what one word
does to an interpretation context. Both decoders run it (R95). -/

namespace Sys2Proof.Machine

/-- Whether an invalid word is trusted as the sequential continuation: a position word with
`BASE = some b` and `tent = b + 1` as natural numbers (R97, R76 (d)). -/
def trusted (ctx : Context) (payload : Byte) : Bool :=
  match ctx.base with
  | some b => isPos payload && decide ((posOf payload).toNat = b.toNat + 1)
  | none => false

/-- An accepted position word: `CUR` and `BASE` take its position, then the sanity bound
`4 * tent > L` drops both (R99, R100). -/
def acceptPosition (ctx : Context) (payload checksum : Byte) (len : Nat) : Context × List Event :=
  let tent := posOf payload
  if Config.sanityDiv * tent.toNat > len then
    ({ ctx with cur := none, base := none }, diag .positionOverflow payload checksum)
  else
    ({ ctx with cur := some tent, base := some tent },
      [.fieldResolved .position (posByte tent) payload checksum])

/-- A valid value word: recorded at the pending position, which it consumes (R101), or dropped when
no position is pending (R102). -/
def acceptValue (P : Params) (ctx : Context) (payload checksum : Byte) : Context × List Event :=
  match ctx.cur with
  | some c =>
    ({ ctx.record c payload with cur := none, base := if P.keepBase then ctx.base else none },
      [.fieldResolved .character payload payload checksum])
  | none => (ctx, diag .unsolicitedValue payload checksum)

/-- `Interpret(payload, checksum, L)` on one context: the context after it and the events it appends
(R95, R96, R98). -/
def interpret (P : Params) (ctx : Context) (payload checksum : Byte) (len : Nat) :
    Context × List Event :=
  if verify payload checksum || trusted ctx payload then
    if isPos payload then acceptPosition ctx payload checksum len
    else acceptValue P ctx payload checksum
  else (ctx, diag .checksumMismatch payload checksum)

/-- The interpretation step on the session's context, with `L` the `STREAM_LEN` of the state (R100 (b)):
the state after it and the events. -/
def State.interpretWord (P : Params) (s : State) (payload checksum : Byte) : State × List Event :=
  let r := interpret P s.ctx payload checksum (P.streamLen s.session)
  ({ s with ctx := r.1 }, r.2)

/-- The interpretation of consecutive pairs, stride 2, with one `L` for every pair; a last byte
without a partner is read by nothing (R104, R105). -/
def interpretPairs (P : Params) (len : Nat) : Context → List Byte → Context × List Event
  | ctx, payload :: checksum :: rest =>
    let r := interpret P ctx payload checksum len
    let q := interpretPairs P len r.1 rest
    (q.1, r.2 ++ q.2)
  | ctx, _ => (ctx, [])

end Sys2Proof.Machine
end

