-- ==== Sys2Proof/Machine/BitUtil.lean ====
section
/-! DEFINITION. The family of 40_bit_utilities.md: `REV`, `CSUM`, `VERIFY`, `CLASSIFY`. They read no
state, write no state and emit no event. -/

namespace Sys2Proof.Machine

/-- `REV b` (R70). -/
def execRev (b : Byte) (s : State) : Host.Outcome State Fault Refusal := s.done (.byte (rev b)) []

/-- `CSUM b` (R71). -/
def execCsum (b : Byte) (s : State) : Host.Outcome State Fault Refusal := s.done (.byte (csum b)) []

/-- `VERIFY payload, checksum` (R72): it reports and raises no condition. -/
def execVerify (payload checksum : Byte) (s : State) : Host.Outcome State Fault Refusal :=
  s.done (.bit (verify payload checksum)) []

/-- `CLASSIFY payload` (R73): `pos` is returned for a value word as well. -/
def execClassify (payload : Byte) (s : State) : Host.Outcome State Fault Refusal :=
  s.done (.kind (isPos payload) (posOf payload)) []

end Sys2Proof.Machine
end

