-- ==== Sys2Proof/Machine/Buffer.lean ====
section
/-! DEFINITION. The family of 41_bit_buffer.md on the session's buffer: `GETBIT`, `SETBIT`, `SHIFTWIN`,
`READBITS`. They do not touch `bitIndex`, `alignAttempts`, `CUR`, `BASE` or `OUT` and emit no event. -/

namespace Sys2Proof.Machine

/-- `GETBIT i` at a natural bit index (R81): refused at or beyond `BLEN`. -/
def State.readBufBit (s : State) (i : Nat) : Host.Outcome State Fault Refusal :=
  if s.blen ≤ i then .refused .badIndex else s.done (.bit (Memory.getBit s.buf i)) []

/-- `SETBIT i, v` at a natural bit index (R82): refused only at a finite capacity. -/
def State.writeBufBit (P : Params) (s : State) (i : Nat) (v : Bit) :
    Host.Outcome State Fault Refusal :=
  if within P.bufCap (i / 8 + 1) then (s.putBufBit i v).done .empty [] else .refused .full

/-- `SHIFTWIN a, n` at a natural offset and count (R83): refused unless both bytes exist. -/
def State.shiftBuf (s : State) (a n : Nat) : Host.Outcome State Fault Refusal :=
  if a + 2 > nbytes s.blen then .refused .badIndex else (s.shiftBufWindow a n).done .empty []

/-- `GETBIT i` (R81). -/
def execGetbit (i : Nat) (s : State) : Host.Outcome State Fault Refusal :=
  s.readBufBit i

/-- `SETBIT i, v` (R82). -/
def execSetbit (i : Nat) (v : Bit) (s : State) : Host.Outcome State Fault Refusal :=
  s.writeBufBit Config.params i v

/-- `SHIFTWIN a, n` (R83). -/
def execShiftwin (a : Nat) (n : BitVec 5) (s : State) : Host.Outcome State Fault Refusal :=
  s.shiftBuf a n.toNat

/-- `READBITS` (R84): the `BLEN` bits in increasing bit index. -/
def execReadbits (s : State) : Host.Outcome State Fault Refusal :=
  s.done (.bits (Memory.bits s.buf s.blen)) []

end Sys2Proof.Machine
end

