-- ==== Sys2Proof/Machine/Codec.lean ====
section
/-! DEFINITION. The family of 43_word_interpretation_and_batch_decoder.md: the wire words `POSW` and
`VALW`, the batch decoder `DECODE`, the read-out `READMSG`. -/

namespace Sys2Proof.Machine

/-- A wire word of the given payload and checksum interpreted on the session's context (R95). -/
def State.runWord (P : Params) (s : State) (payload checksum : Byte) :
    Host.Outcome State Fault Refusal :=
  let r := s.interpretWord P payload checksum
  r.1.done .empty r.2

/-- `POSW` (R99, R100; an invalid one is trusted or discarded, R97, R98): the interpretation step on the
session's context. `FEED` runs it on every window that verifies (R119), `DECODE` on its own context (log 13). -/
def execPosw (position : Pos) (checksum : Byte) (s : State) : Host.Outcome State Fault Refusal :=
  s.runWord Config.params (posPayload position) checksum

/-- `VALW` (R101, R102; an invalid one is discarded, R98): the interpretation step on the session's
context (log 13). -/
def execValw (value : Pos) (checksum : Byte) (s : State) : Host.Outcome State Fault Refusal :=
  s.runWord Config.params (valPayload value) checksum

/-- The batch decoder as a function of its input: the message and the events, from a fresh private
context that is then discarded (R17, R104, R106). -/
def decodeBatch (P : Params) (input : List Byte) : List Sym × List Event :=
  let r := interpretPairs P input.length Context.fresh input
  (materialise P r.1.out, r.2 ++ [.messageUpdated (materialise P r.1.out)])

/-- `DECODE` (R104): none of the session's state is read or written. -/
def execDecode (input : List Byte) (s : State) : Host.Outcome State Fault Refusal :=
  let r := decodeBatch Config.params input
  s.done (.message r.1) r.2

/-- `READMSG` (R108): the session's current, possibly partial, message. -/
def execReadmsg (s : State) : Host.Outcome State Fault Refusal :=
  s.done (.message (materialise Config.params s.ctx.out)) []

end Sys2Proof.Machine
end

