-- ==== Sys2Proof/Machine/Encoder.lean ====
section
/-! DEFINITION. The encoder of 42_encoder.md: `ENCODE`. -/

namespace Sys2Proof.Machine

/-- `ENCODE` (R90): the frames of the message, content bytes unchecked (R92); `MessageTooLong` by the
length alone, before any byte is produced (R91). -/
def execEncode (msg : List Byte) (s : State) : Host.Outcome State Fault Refusal :=
  if msg.length > Config.maxMsg then s.raise .messageTooLong msg.length
  else s.done (.bytes (framesFrom 0 msg)) []

end Sys2Proof.Machine
end

