-- ==== Sys2Proof/Machine/Stream.lean ====
section
/-! DEFINITION. The streaming reassembler of 44_streaming_reassembler.md: `FEED`, `CLEAR`, `STATUS`. -/

namespace Sys2Proof.Machine

/-- Step 4 of `FEED`, a failed check (R118): one more attempt, the cursor back by one, the same two
bytes shifted left by one bit; `CUR`, `BASE` and `OUT` are not touched. -/
def State.slide (s : State) : State :=
  { s.shiftBufWindow (windowOffset s.bitIndex) 1 with
    alignAttempts := s.alignAttempts + 1
    bitIndex := s.bitIndex - 1 }

/-- Step 5 of `FEED` after the interpretation (R119): a fresh two-byte slot and no attempt pending. -/
def State.acceptWord (s : State) : State :=
  { s with blen := s.blen + Config.wordBits, alignAttempts := 0 }

/-- Steps 3 to 5 of `FEED`, on a state whose incremented `bitIndex` is a multiple of 16; `bit` is the
bit just stored (R115, R117 to R119). The events are in the order of R141. -/
def State.checkWindow (P : Params) (s : State) (bit : Bit) : Host.Outcome State Fault Refusal :=
  let payload := Memory.read s.buf (windowOffset s.bitIndex)
  let checksum := Memory.read s.buf (windowOffset s.bitIndex + 1)
  if verify payload checksum then
    let r := s.interpretWord P payload checksum
    r.1.acceptWord.done .empty
      (.bitObserved bit :: r.2 ++ [.messageUpdated (materialise P r.1.ctx.out)])
  else if fitsWidth P.attW (s.alignAttempts + 1) then
    s.slide.done .empty (.bitObserved bit :: diag .checksumMismatch payload checksum)
  else .refused .counterLimit

/-- `FEED bit` (R115): the capacity tests, step 1, the gate of step 2 (R116), and the check. -/
def State.feedBit (P : Params) (s : State) (bit : Bit) : Host.Outcome State Fault Refusal :=
  if within P.bufCap (nbytes (max s.blen (s.bitIndex + 1) + Config.wordBits)) then
    if fitsWidth P.idxW (s.bitIndex + 1) then
      if (s.bitIndex + 1) % Config.wordBits = 0 then (s.storeBit bit).checkWindow P bit
      else (s.storeBit bit).done .empty [.bitObserved bit]
    else .refused .counterLimit
  else .refused .full

/-- `FEED bit` (R115). -/
def execFeed (bit : Bit) (s : State) : Host.Outcome State Fault Refusal :=
  s.feedBit Config.params bit

/-- `CLEAR` (R124, R150): every state element takes its reset value; the beats that the host has
presented after it stay on the port. -/
def execClear (s : State) : Host.Outcome State Fault Refusal :=
  (State.reset.taking s.port).done .empty []

/-- `STATUS` (R125). -/
def execStatus (s : State) : Host.Outcome State Fault Refusal := s.done (.status s.statusView) []

end Sys2Proof.Machine
end

