-- ==== Sys2Proof/Machine/Dispatch.lean ====
section
/-! DEFINITION. The meaning of every instruction: one arm for each constructor of `Instr`. -/

namespace Sys2Proof.Machine

def exec (i : Instr) (s : State) : Host.Outcome State Fault Refusal :=
  match i with
  | .clear => Sys2Proof.Machine.execClear s
  | .feed bit => Sys2Proof.Machine.execFeed bit s
  | .status => Sys2Proof.Machine.execStatus s
  | .readmsg => Sys2Proof.Machine.execReadmsg s
  | .rev b => Sys2Proof.Machine.execRev b s
  | .csum b => Sys2Proof.Machine.execCsum b s
  | .verify payload checksum => Sys2Proof.Machine.execVerify payload checksum s
  | .classify payload => Sys2Proof.Machine.execClassify payload s
  | .getbit idx => Sys2Proof.Machine.execGetbit idx s
  | .setbit idx v => Sys2Proof.Machine.execSetbit idx v s
  | .shiftwin a n => Sys2Proof.Machine.execShiftwin a n s
  | .readbits => Sys2Proof.Machine.execReadbits s
  | .encode msg => Sys2Proof.Machine.execEncode msg s
  | .decode input => Sys2Proof.Machine.execDecode input s
  | .posw position checksum => Sys2Proof.Machine.execPosw position checksum s
  | .valw value checksum => Sys2Proof.Machine.execValw value checksum s

end Sys2Proof.Machine
end

