-- ==== Sys2Proof/Machine/Step.lean ====
section
/-! DEFINITION. One step: SBR takes the next command from its port and executes it to completion
(R5, R61, R154). -/

namespace Sys2Proof.Machine

/-- One step; the outputs of the step before are dropped first (R18, log 4). With nothing presented SBR is
idle and its whole state is held (R145); a command whose data beats have not all come does not complete, and
no state changes (log 2); a command word that matches no row is refused (R64); a data beat without a command
is refused by name (log 3). -/
def step (s : State) : Host.Outcome State Fault Refusal :=
  match s.fetched with
  | .idle => .next s.dropOutputs
  | .waiting => .next s.dropOutputs
  | .stray _ => .refused .strayBeat
  | .bad _ => .refused .badCommand
  | .instr i rest => exec i (s.taking rest)

/-- The state with an instruction of the opcode table placed where the next step takes it: a command
word (32 bits) at the front of the port, a wire word (16 bits) in the session's window with its last
bit presented as a `FEED` (log 1, log 14). -/
def State.withFetchWord (s : State) (nbits w : Nat) : State :=
  match nbits with
  | 32 => s.presentCommand (BitVec.ofNat 32 w)
  | 16 => s.presentWire (BitVec.ofNat 16 w)
  | _ => s

end Sys2Proof.Machine
end

