-- ==== Sys2Proof/Machine/ShiftReg.lean ====
section
/-! DEFINITION. The equivalent shift-register form of `FEED` (R122), in the words of that rule: a 16-bit
register, a fill count and the accepted-word count in place of the buffer. The machine does not use it;
statements compare `FEED` with it. -/

namespace Sys2Proof.Machine

/-- The registers of R122, with `alignAttempts` and the interpretation context. -/
structure ShiftReg where
  /-- `SR`, the sixteen newest bits. -/
  sr : Word16
  /-- `n`, the fill count, `0..15` between commands. -/
  fill : Nat
  /-- `A`, the accepted-word count. -/
  accepted : Nat
  /-- `alignAttempts`. -/
  alignAttempts : Nat
  /-- `CUR`, `BASE` and `OUT`. -/
  ctx : Context
deriving DecidableEq, Repr

/-- `FEED bit` in shift-register form (R122): the registers after it and the events. -/
def ShiftReg.feed (P : Params) (r : ShiftReg) (bit : Bit) : ShiftReg × List Event :=
  let sr := (r.sr <<< 1) ||| (BitVec.ofBool bit).zeroExtend 16
  if r.fill + 1 = Config.wordBits then
    if verify (hiByte sr) (loByte sr) then
      let q := interpret P r.ctx (hiByte sr) (loByte sr) (2 * (r.accepted + 1))
      (⟨sr, 0, r.accepted + 1, 0, q.1⟩,
        .bitObserved bit :: q.2 ++ [.messageUpdated (materialise P q.1.out)])
    else (⟨sr, 15, r.accepted, r.alignAttempts + 1, r.ctx⟩,
        .bitObserved bit :: diag .checksumMismatch (hiByte sr) (loByte sr))
  else (⟨sr, r.fill + 1, r.accepted, r.alignAttempts, r.ctx⟩, [.bitObserved bit])

/-- A session state and the registers of R122 stand for the same session: `bitIndex = 16A + n`, and the
window of R117 is `SR` left-aligned, `(SR * 2^(16-n)) mod 65536`. -/
structure ShiftReg.Represents (r : ShiftReg) (s : State) : Prop where
  fill_lt : r.fill < Config.wordBits
  cursor : s.bitIndex = Config.wordBits * r.accepted + r.fill
  window : Memory.read16 s.buf s.woff = r.sr <<< (Config.wordBits - r.fill)
  attempts : s.alignAttempts = r.alignAttempts
  context : s.ctx = r.ctx

end Sys2Proof.Machine
end

