-- ==== Sys2Proof/Safety.lean ====
section
/-! DEFINITION. The terms in which statements speak of safe states and of runs: the invariants of the
buffer and of a session (R11, R22), the beats of a stream, and how a run goes on after a refusal. -/

namespace Sys2Proof.Machine

/-- The buffer is in canonical form, and every bit at or beyond `BLEN` is 0 (R11: such bits "hold 0 until
written"; D5). Every command keeps it. -/
structure BufferOk (s : State) : Prop where
  canonical : Memory.wf s.buf = true
  zeroBeyond : ∀ i, s.blen ≤ i → Memory.getBit s.buf i = false

/-- The invariants of R22 that hold between commands as long as the host uses neither `SETBIT` nor
`SHIFTWIN`; (d) is about `KEEP_BASE = 0` only and is not among them, `MAXREC` is computed. -/
structure SessionOk (s : State) : Prop where
  /-- (a), first half. -/
  cursor_le : s.bitIndex ≤ s.blen
  /-- (a), second half. -/
  blen_le : s.blen ≤ 16 * (s.bitIndex / 16 + 1)
  /-- (b). -/
  attempts : 0 < s.alignAttempts → s.bitIndex % 16 = 15
  /-- (c). -/
  pending : ∀ c, s.ctx.cur = some c → s.ctx.base = some c
  /-- (e): a stored byte is below `0x80`. -/
  content : ∀ p v, s.ctx.outAt p = some v → v.toNat < 0x80
  /-- (f): the buffer below the window is the accepted words. -/
  accepted : ∀ k, k < s.bitIndex / 16 →
    verify (Memory.read s.buf (2 * k)) (Memory.read s.buf (2 * k + 1)) = true

/-- An instruction that leaves the reassembler's buffer to the reassembler (R156). -/
def leavesBuffer : Instr → Bool
  | .setbit _ _ => false
  | .shiftwin _ _ => false
  | .clear => true
  | .feed _ => true
  | .status => true
  | .readmsg => true
  | .rev _ => true
  | .csum _ => true
  | .verify _ _ => true
  | .classify _ => true
  | .getbit _ => true
  | .readbits => true
  | .encode _ => true
  | .decode _ => true
  | .posw _ _ => true
  | .valw _ _ => true

/-- The beats of a run of `FEED` commands (R66: a bit string stands for its `FEED` words). -/
def feedBeats (bits : List Bit) : List PortBeat := bits.flatMap fun b => (encode (.feed b)).beats

/-- A state with beats presented on its port, after those already there. -/
def State.presented (s : State) (beats : List PortBeat) : State :=
  { s with port := s.port ++ beats }

/-- Bytes that a value word can carry, below `0x80` (R52, R157). -/
def contentBytes (msg : List Byte) : Bool := msg.all fun b => decide (b.toNat < 0x80)

/-- `n` steps of the machine, stopping at the first refusal. -/
def run (n : Nat) (s : State) : Host.Outcome State Fault Refusal := Host.Core.run core n s

/-- One step, going on past a refusal as the host does (R138, log 5). -/
def State.advance (s : State) : State :=
  match step s with
  | .next t => t
  | .refused _ => s.afterRefusal
  | .fault _ => s

/-- `n` steps, going on past refusals. -/
def State.advances : Nat → State → State
  | 0, s => s
  | n + 1, s => State.advances n s.advance

end Sys2Proof.Machine
end

