-- ==== Sys2Proof/Certificates/Slice0/Obligations.lean ====
section
/-! DEFINITION. What the provers are asked to prove about the machine. Each statement formalises rules of
spec/ or is derived from them; OBLIGATIONS.json says which, and where a statement rests on a choice of the
model its docstring names the log entry. -/

open Sys2Proof Sys2Proof.Machine

/-! ## Bit utilities and the word classifier -/

/-- `REV` (R70): bit `k` of the response is bit `7 - k` of the operand, no state is written and no event is
emitted; its word is opcode `0x4` with the operand low; it fixes exactly the 16 palindromic bytes. -/
def Obligations.RevReversesEveryBit : Prop :=
  ∀ (b : Byte) (s : State) (rest : List PortBeat),
    decodePort (.cmd (0x4#4 ++ 0#20 ++ b) :: rest) = .instr (.rev b) rest ∧
    ∃ r : Byte, (∀ k, k < 8 → r.getLsbD k = b.getLsbD (7 - k)) ∧
      exec (.rev b) s = .next { s with response := .byte r, events := [] } ∧
      (r = b ↔ b ∈ [0x00#8, 0x18#8, 0x24#8, 0x3C#8, 0x42#8, 0x5A#8, 0x66#8, 0x7E#8, 0x81#8, 0x99#8,
        0xA5#8, 0xBD#8, 0xC3#8, 0xDB#8, 0xE7#8, 0xFF#8])

/-- `CSUM` (R71): bit `k` of the response is the complement of bit `7 - k` of the operand; it is the
complement of `REV`'s response; the checksum of the checksum is the operand; exactly 16 bytes are their own
checksum. -/
def Obligations.CsumIsReversedComplement : Prop :=
  ∀ (b : Byte) (s : State) (rest : List PortBeat),
    decodePort (.cmd (0x5#4 ++ 0#20 ++ b) :: rest) = .instr (.csum b) rest ∧
    ∃ r q : Byte, (∀ k, k < 8 → r.getLsbD k = !b.getLsbD (7 - k)) ∧
      exec (.csum b) s = .next { s with response := .byte r, events := [] } ∧
      exec (.rev b) s = .next { s with response := .byte q, events := [] } ∧
      r = ~~~q ∧
      exec (.csum r) s = .next { s with response := .byte b, events := [] } ∧
      (r = b ↔ b ∈ [0x0F#8, 0x17#8, 0x2B#8, 0x33#8, 0x4D#8, 0x55#8, 0x69#8, 0x71#8, 0x8E#8, 0x96#8,
        0xAA#8, 0xB2#8, 0xCC#8, 0xD4#8, 0xE8#8, 0xF0#8])

/-- `VERIFY` (R72): it answers 1 exactly when every bit `k` of the checksum is the complement of payload bit
`7 - k`, writes no state and raises no condition. -/
def Obligations.VerifyAcceptsExactlyTheChecksum : Prop :=
  ∀ (p c : Byte) (s : State) (rest : List PortBeat),
    decodePort (.cmd (0x6#4 ++ 0#12 ++ p ++ c) :: rest) = .instr (.verify p c) rest ∧
    ∃ v : Bit, (v = true ↔ ∀ k, k < 8 → c.getLsbD k = !p.getLsbD (7 - k)) ∧
      exec (.verify p c) s = .next { s with response := .bit v, events := [] }

/-- `CLASSIFY` (R73): the kind is the payload's top bit and the position its low seven bits, whatever the
kind. -/
def Obligations.ClassifySplitsThePayload : Prop :=
  ∀ (p : Byte) (s : State) (rest : List PortBeat),
    decodePort (.cmd (0x7#4 ++ 0#20 ++ p) :: rest) = .instr (.classify p) rest ∧
    ∃ (k : Bit) (pos : Pos), (k = true ↔ 0x80 ≤ p.toNat) ∧ pos.toNat = p.toNat % 128 ∧
      exec (.classify p) s = .next { s with response := .kind k pos, events := [] }

/-- `REV` of the response of `REV b` is `b` (R74). -/
def Obligations.ReversalIsSelfInverse : Prop :=
  ∀ (b : Byte) (s : State), ∃ (r : Byte) (t : State),
    exec (.rev b) s = .next t ∧ t.response = .byte r ∧
    exec (.rev r) t = .next { s with response := .byte b, events := [] }

/-- Two different payloads have different checksums, and a single flipped bit is one case (R75). -/
def Obligations.ChecksumSeesEveryChange : Prop :=
  ∀ (a b : Byte) (s : State), ∃ x y : Byte,
    exec (.csum a) s = .next { s with response := .byte x, events := [] } ∧
    exec (.csum b) s = .next { s with response := .byte y, events := [] } ∧
    (a ≠ b → x ≠ y) ∧ (∀ k, k < 8 → b = a ^^^ (1#8 <<< k) → x ≠ y)

/-- Of the 65536 windows exactly 256 are valid, one for each payload (R54): each payload has one checksum
that `VERIFY` accepts, `0x0000` and `0xFFFF` are not valid, `0x5555` and `0xAAAA` are. -/
def Obligations.OneValidWordForEachPayload : Prop :=
  ∀ s : State,
    (∀ p : Byte, ∃ c : Byte,
      exec (.verify p c) s = .next { s with response := .bit true, events := [] } ∧
      ∀ d : Byte, d ≠ c → exec (.verify p d) s = .next { s with response := .bit false, events := [] }) ∧
    exec (.verify 0x00 0x00) s = .next { s with response := .bit false, events := [] } ∧
    exec (.verify 0xFF 0xFF) s = .next { s with response := .bit false, events := [] } ∧
    exec (.verify 0x55 0x55) s = .next { s with response := .bit true, events := [] } ∧
    exec (.verify 0xAA 0xAA) s = .next { s with response := .bit true, events := [] }

/-! ## The bit-addressable buffer -/

/-- `GETBIT` (R81): below `BLEN` it answers bit `7 - (i mod 8)` of byte `i div 8` and changes nothing; at or
beyond `BLEN` it is refused, `BadIndex`. Its word carries every index below `2^27` (R63). -/
def Obligations.GetbitReadsOrRefuses : Prop :=
  ∀ (i : Nat) (s : State) (rest : List PortBeat),
    (i < 2 ^ 27 → decodePort (.cmd (0x8#4 ++ BitVec.ofNat 28 i) :: rest) = .instr (.getbit i) rest) ∧
    (i < s.blen →
      exec (.getbit i) s = .next { s with
        response := .bit ((Memory.read s.buf (i / 8)).getLsbD (7 - i % 8)), events := [] }) ∧
    (s.blen ≤ i → exec (.getbit i) s = .refused .badIndex)

/-- `SETBIT` (R82): it completes in every state; the bit `i` becomes `v`, every other bit and every other byte
of the buffer reads as before (a gap beyond the old `BLEN` as zeros), `BLEN` becomes the larger of itself and
`i + 1`, and nothing else changes. Its word carries every index below `2^27` (R63). That it completes in every
state rests on the unbounded `BUF_CAP` (log 9). -/
def Obligations.SetbitWritesOneBit : Prop :=
  ∀ (i : Nat) (v : Bit) (s : State) (rest : List PortBeat),
    (i < 2 ^ 27 → decodePort (.cmd (0x9#4 ++ BitVec.ofBool v ++ BitVec.ofNat 27 i) :: rest) =
      .instr (.setbit i v) rest) ∧
    ∃ t, exec (.setbit i v) s = .next t ∧
      t = { s with buf := t.buf, blen := max s.blen (i + 1), response := .empty, events := [] } ∧
      (BufferOk s →
        (∀ a, a ≠ i / 8 → Memory.read t.buf a = Memory.read s.buf a) ∧
        (∀ j, Memory.getBit t.buf j = if j = i then v else Memory.getBit s.buf j) ∧
        (∀ j, s.blen ≤ j → j ≠ i → Memory.getBit t.buf j = false))

/-- `SHIFTWIN` (R83): when both bytes exist, bit `j` of the window becomes bit `j + n` of it, zeros entering
from the right (its 16-bit value is multiplied by `2^n` modulo 65536), every bit and byte outside the window
reads as before and nothing else changes; otherwise it is refused, `BadIndex`. Its word carries every offset
below `2^23` (R63). -/
def Obligations.ShiftwinMovesTheWindow : Prop :=
  ∀ (a : Nat) (n : BitVec 5) (s : State) (rest : List PortBeat),
    (a < 2 ^ 23 → decodePort (.cmd (0xA#4 ++ BitVec.ofNat 23 a ++ n) :: rest) =
      .instr (.shiftwin a n) rest) ∧
    (a + 2 ≤ (s.blen + 7) / 8 →
      ∃ t, exec (.shiftwin a n) s = .next t ∧
        t = { s with buf := t.buf, response := .empty, events := [] } ∧
        (Memory.wf s.buf = true →
          (∀ j, Memory.getBit t.buf j =
            if 8 * a ≤ j ∧ j < 8 * a + 16 then
              (if j + n.toNat < 8 * a + 16 then Memory.getBit s.buf (j + n.toNat) else false)
            else Memory.getBit s.buf j) ∧
          (Memory.read16 t.buf a).toNat = (Memory.read16 s.buf a).toNat * 2 ^ n.toNat % 65536 ∧
          ∀ k, k ≠ a → k ≠ a + 1 → Memory.read t.buf k = Memory.read s.buf k)) ∧
    ((s.blen + 7) / 8 < a + 2 → exec (.shiftwin a n) s = .refused .badIndex)

/-- `READBITS` (R84): exactly `BLEN` bits in increasing bit index, no state written, and the same sequence
again at once. -/
def Obligations.ReadbitsInIndexOrder : Prop :=
  ∀ (s : State) (rest : List PortBeat),
    decodePort (.cmd 0xB0000000#32 :: rest) = .instr .readbits rest ∧
    ∃ bs : List Bit, exec .readbits s = .next { s with response := .bits bs, events := [] } ∧
      bs.length = s.blen ∧
      (∀ i, i < s.blen → bs[i]? = some ((Memory.read s.buf (i / 8)).getLsbD (7 - i % 8))) ∧
      exec .readbits { s with response := .bits bs, events := [] } =
        .next { s with response := .bits bs, events := [] }

/-- `bitsOf(B)` is what `READBITS` answers for a buffer that holds exactly the bytes `B` (R85). -/
def Obligations.ReadbitsGivesBitsOfBytes : Prop :=
  ∀ (bs : List Byte) (s : State), s.blen = 8 * bs.length →
    (∀ i (h : i < bs.length), Memory.read s.buf i = bs[i]) →
    exec .readbits s = .next { s with response := .bits (bitsOf bs), events := [] }

/-- Read-only and pure commands leave the session's eight elements alone (R35, R106). -/
def Obligations.ReadOnlyCommandsKeepTheSession : Prop :=
  ∀ (i : Instr) (s t : State),
    (i = .status ∨ i = .readmsg ∨ i = .readbits ∨ (∃ j, i = .getbit j) ∨ (∃ b, i = .rev b) ∨
      (∃ b, i = .csum b) ∨ (∃ p c, i = .verify p c) ∨ (∃ p, i = .classify p) ∨
      (∃ m, i = .encode m) ∨ ∃ d, i = .decode d) →
    exec i s = .next t → t.session = s.session ∧ t.port = s.port

/-! ## The encoder -/

/-- `ENCODE` of at most 128 bytes (R90): four bytes for each content byte, the frame of byte `i` at `4i`:
position payload, its checksum, the byte as it stands, its checksum; no state is written. -/
def Obligations.EncodeMakesFrames : Prop :=
  ∀ (msg : List Byte) (s : State), msg.length ≤ 128 →
    ∃ out : List Byte, exec (.encode msg) s = .next { s with response := .bytes out, events := [] } ∧
      out.length = 4 * msg.length ∧
      ∀ i (h : i < msg.length), ∃ c d : Byte,
        out[4 * i]? = some (BitVec.ofNat 8 (0x80 + i)) ∧ out[4 * i + 1]? = some c ∧
        out[4 * i + 2]? = some msg[i] ∧ out[4 * i + 3]? = some d ∧
        (∀ k, k < 8 → c.getLsbD k = !(BitVec.ofNat 8 (0x80 + i)).getLsbD (7 - k)) ∧
        (∀ k, k < 8 → d.getLsbD k = !msg[i].getLsbD (7 - k))

/-- `ENCODE` of more than 128 bytes (R91): `MessageTooLong`, code 1, by the length alone, with no byte
produced and no state changed. -/
def Obligations.EncodeTooLongIsTheOnlyError : Prop :=
  ∀ (msg : List Byte) (s : State),
    (128 < msg.length → exec (.encode msg) s =
      .next { s with response := .error .messageTooLong msg.length, events := [] }) ∧
    (∀ t c n, exec (.encode msg) s = .next t → t.response = .error c n →
      c.code = 1 ∧ n = msg.length ∧ 128 < msg.length)

/-- A content byte of `0x80` or more is emitted as it stands, and its word is a valid position word for the
byte's low seven bits (R92). -/
def Obligations.EncoderPassesHighBytes : Prop :=
  ∀ (msg : List Byte) (s : State) (i : Nat) (h : i < msg.length), msg.length ≤ 128 →
    0x80 ≤ msg[i].toNat →
    ∃ (out : List Byte) (c : Byte),
      exec (.encode msg) s = .next { s with response := .bytes out, events := [] } ∧
      out[4 * i + 2]? = some msg[i] ∧ out[4 * i + 3]? = some c ∧
      decodeWord (msg[i] ++ c) = .posw (BitVec.ofNat 7 (msg[i].toNat - 0x80)) c ∧
      exec (.verify msg[i] c) s = .next { s with response := .bit true, events := [] }

/-! ## Wire words and their interpretation -/

/-- `POSW` with the right checksum on the session's context (R99, R100; log 13 for `L`): within the bound
`CUR` and `BASE` take the position, whatever was pending, and it is reported; beyond it both are dropped
with `PositionOverflow`. Nothing else changes. -/
def Obligations.PoswSetsOrOverflows : Prop :=
  ∀ (p : Pos) (c : Byte) (s : State), verify (posPayload p) c = true →
    (4 * p.toNat ≤ s.bitIndex / 8 →
      exec (.posw p c) s = .next { s with
        ctx := { s.ctx with cur := some p, base := some p }, response := .empty
        events := [.fieldResolved .position (p.zeroExtend 8) (1#1 ++ p) c] }) ∧
    (s.bitIndex / 8 < 4 * p.toNat →
      exec (.posw p c) s = .next { s with
        ctx := { s.ctx with cur := none, base := none }, response := .empty
        events := [.diagnostic .positionOverflow (1#1 ++ p) c] })

/-- `VALW` with the right checksum on the session's context (log 13): with `CUR = some q` the byte is recorded at `q`
alone, `CUR` is consumed and `BASE` kept (R101); with nothing pending it is dropped with
`UnsolicitedValue` and no state changes (R102). -/
def Obligations.ValwRecordsOrIsDropped : Prop :=
  ∀ (v : Pos) (c : Byte) (s : State), verify (valPayload v) c = true →
    (∀ q, s.ctx.cur = some q →
      ∃ t, exec (.valw v c) s = .next t ∧
        t = { s with
          ctx := { s.ctx with cur := none, out := t.ctx.out }, response := .empty
          events := [.fieldResolved .character (0#1 ++ v) (0#1 ++ v) c] } ∧
        ∀ p, t.ctx.outAt p = if p = q then some (0#1 ++ v) else s.ctx.outAt p) ∧
    (s.ctx.cur = none →
      exec (.valw v c) s = .next { s with
        response := .empty, events := [.diagnostic .unsolicitedValue (0#1 ++ v) c] })

/-- Continuation trust (R97): an invalid word is treated in every respect as a valid one exactly when it is a
position word and `BASE = some b` with its position `b + 1` as natural numbers; with `BASE = none`, for
position 0 and after position 127 nothing is trusted. -/
def Obligations.TrustIsSequentialOnly : Prop :=
  ∀ (P : Params) (ctx : Context) (p c : Byte) (len : Nat), verify p c = false →
    (∀ b, ctx.base = some b → 0x80 ≤ p.toNat → p.toNat % 128 = b.toNat + 1 →
      (interpret P ctx p c len).1 = (interpret P ctx p (csum p) len).1 ∧
      (interpret P ctx p c len).2 ≠ [.diagnostic .checksumMismatch p c]) ∧
    ((∀ b, ctx.base = some b → p.toNat % 128 ≠ b.toNat + 1) ∨ p.toNat < 0x80 →
      interpret P ctx p c len = (ctx, [.diagnostic .checksumMismatch p c]))

/-- The wire words `POSW` and `VALW` with a wrong checksum (R98; on the session's context, log 13): a value word, and a position word that is
not the sequential continuation, are discarded with `ChecksumMismatch` and leave every element alone. -/
def Obligations.InvalidWordsAreDiscarded : Prop :=
  ∀ (v : Pos) (c : Byte) (s : State),
    (verify (valPayload v) c = false →
      exec (.valw v c) s = .next { s with
        response := .empty, events := [.diagnostic .checksumMismatch (0#1 ++ v) c] }) ∧
    (verify (posPayload v) c = false → (∀ b, s.ctx.base = some b → v.toNat ≠ b.toNat + 1) →
      exec (.posw v c) s = .next { s with
        response := .empty, events := [.diagnostic .checksumMismatch (1#1 ++ v) c] })

/-- One word raises at most one condition and the three are mutually exclusive (R134): the interpretation
step appends exactly one event, which is a diagnostic exactly in the three cases of R98, R100 and R102. -/
def Obligations.OneConditionForEachWord : Prop :=
  ∀ (P : Params) (ctx : Context) (p c : Byte) (len : Nat), ∃ e : Event,
    (interpret P ctx p c len).2 = [e] ∧
    (e = .diagnostic .checksumMismatch p c ↔ verify p c = false ∧ trusted ctx p = false) ∧
    (e = .diagnostic .positionOverflow p c ↔
      (verify p c = true ∨ trusted ctx p = true) ∧ 0x80 ≤ p.toNat ∧ len < 4 * (p.toNat % 128)) ∧
    (e = .diagnostic .unsolicitedValue p c ↔
      verify p c = true ∧ p.toNat < 0x80 ∧ ctx.cur = none)

/-- With `KEEP_BASE = 0` the pair behaves as one register (R15, R22 (d)): an interpretation step keeps
`BASE = CUR`. -/
def Obligations.SingleRegisterReading : Prop :=
  ∀ (P : Params) (ctx : Context) (p c : Byte) (len : Nat), P.keepBase = false → ctx.base = ctx.cur →
    (interpret P ctx p c len).1.base = (interpret P ctx p c len).1.cur

/-! ## The batch decoder and the read-out -/

/-- `DECODE` completes in every state, writes none of the session, and is a function of its input: two of
them answer the same response and the same events whatever the states (R104, R106). -/
def Obligations.DecodeIsAFunctionOfItsInput : Prop :=
  ∀ d : List Byte, ∃ (msg : List Sym) (es : List Event), ∀ s : State,
    exec (.decode d) s = .next { s with response := .message msg, events := es }

/-- What `DECODE` reports (R104, R141): one event for each pair, a resolved field or a diagnostic, then one
`messageUpdated` with the message that it answers. -/
def Obligations.DecodeReportsEachPairThenTheMessage : Prop :=
  ∀ (d : List Byte) (s : State), ∃ (msg : List Sym) (es : List Event),
    exec (.decode d) s =
      .next { s with response := .message msg, events := es ++ [.messageUpdated msg] } ∧
    es.length = d.length / 2 ∧
    ∀ e ∈ es, (∃ k v p c, e = .fieldResolved k v p c) ∨ ∃ k p c, e = .diagnostic k p c

/-- The last byte of an input of odd length is read by nothing, but the sanity bound counts it (R105). -/
def Obligations.DecodeIgnoresATrailingByte : Prop :=
  ∀ (P : Params) (d : List Byte) (b : Byte), d.length % 2 = 0 →
    (decodeBatch P (d ++ [b])).1 =
      materialise P (interpretPairs P (d.length + 1) Context.fresh d).1.out ∧
    ∀ b', decodeBatch P (d ++ [b]) = decodeBatch P (d ++ [b'])

/-- `READMSG` (R107, R108): nothing when nothing is recorded; otherwise one symbol for each position up to
the largest recorded one, `some` byte or unresolved; no state is written and no event is emitted. -/
def Obligations.ReadmsgMaterialisesTheAssembly : Prop :=
  ∀ s : State, ∃ msg : List Sym,
    exec .readmsg s = .next { s with response := .message msg, events := [] } ∧
    ((∀ p, s.ctx.outAt p = none) → msg = []) ∧
    ∀ p, s.ctx.outAt p ≠ none → (∀ q : Pos, p.toNat < q.toNat → s.ctx.outAt q = none) →
      msg.length = p.toNat + 1 ∧ ∀ q : Pos, q.toNat ≤ p.toNat → msg[q.toNat]? = some (s.ctx.outAt q)

/-- Round trip (R109): for every message of at most 128 content bytes, `DECODE` of what `ENCODE` answers
answers the message whole and meets no diagnostic; for every value of the parameters. -/
def Obligations.DecodeOfEncodeIsTheMessage : Prop :=
  ∀ (msg : List Byte), msg.length ≤ 128 → contentBytes msg = true →
    (∀ s : State, ∃ out t, exec (.encode msg) s = .next { s with response := .bytes out, events := [] } ∧
      exec (.decode out) s = .next t ∧ t.response = .message (msg.map some) ∧
      diagnostics t.events = []) ∧
    ∀ P : Params, (decodeBatch P (framesFrom 0 msg)).1 = msg.map some ∧
      diagnostics (decodeBatch P (framesFrom 0 msg)).2 = []

/-- Checksum-only corruption (R110): with the checksum of position word `i` of an encoding replaced by any byte,
`1 <= i`, `DECODE` still answers the message whole; for `i = 0` position 0 is lost; with `KEEP_BASE = 0` the
message is lost for every `i`. -/
def Obligations.CorruptedPositionChecksumIsTolerated : Prop :=
  ∀ (msg out : List Byte) (s t : State) (c : Byte), msg.length ≤ 128 → contentBytes msg = true →
    exec (.encode msg) s = .next t → t.response = .bytes out →
    (∀ i, 1 ≤ i → i < msg.length →
      ∃ u, exec (.decode (out.set (4 * i + 1) c)) s = .next u ∧ u.response = .message (msg.map some)) ∧
    (msg ≠ [] → c ≠ csum 0x80 →
      ∃ u, exec (.decode (out.set 1 c)) s = .next u ∧
        u.response = .message (if msg.length = 1 then [] else (msg.map some).set 0 none)) ∧
    ∀ i, 1 ≤ i → i < msg.length → c ≠ csum (BitVec.ofNat 8 (0x80 + i)) →
      (decodeBatch { Config.params with keepBase := false } (out.set (4 * i + 1) c)).1 ≠ msg.map some

/-- Value corruption (R111): with the checksum of value word `i` replaced by another byte, symbol `i` is
unresolved and every other is right; the last one simply falls away. -/
def Obligations.CorruptedValueChecksumLosesOneSymbol : Prop :=
  ∀ (msg out : List Byte) (s t : State) (i : Nat) (h : i < msg.length) (c : Byte), msg.length ≤ 128 →
    contentBytes msg = true → exec (.encode msg) s = .next t → t.response = .bytes out →
    c ≠ csum msg[i] →
    ∃ u, exec (.decode (out.set (4 * i + 3) c)) s = .next u ∧
      u.response = .message
        (if i + 1 = msg.length then (msg.map some).dropLast else (msg.map some).set i none)

/-! ## The streaming reassembler -/

/-- The gate (R116): a `FEED` after which `bitIndex` is no multiple of 16 stores its bit at `bitIndex`,
advances the cursor, extends `BLEN` if needed and does nothing else. -/
def Obligations.FeedAwayFromAWordOnlyStores : Prop :=
  ∀ (b : Bit) (s : State), (s.bitIndex + 1) % 16 ≠ 0 →
    ∃ t, exec (.feed b) s = .next t ∧
      t = { s with
        buf := t.buf, blen := max s.blen (s.bitIndex + 1), bitIndex := s.bitIndex + 1
        response := .empty, events := [.bitObserved b] } ∧
      (Memory.wf s.buf = true →
        (∀ j, Memory.getBit t.buf j = if j = s.bitIndex then b else Memory.getBit s.buf j) ∧
        ∀ a, a ≠ s.bitIndex / 8 → Memory.read t.buf a = Memory.read s.buf a)

/-- A failed check (R118, R135): one more attempt, the cursor where it was, the window (the bytes at
`2 * (bitIndex div 16)`, the fed bit written) shifted left by one bit, every other byte of the buffer and the
whole interpretation context as before, and `ChecksumMismatch` reported. -/
def Obligations.FeedSlidesOnAFailedCheck : Prop :=
  ∀ (b : Bit) (s : State) (p c : Byte), (s.bitIndex + 1) % 16 = 0 → Memory.wf s.buf = true →
    Memory.read (Memory.setBit s.buf s.bitIndex b) (2 * (s.bitIndex / 16)) = p →
    Memory.read (Memory.setBit s.buf s.bitIndex b) (2 * (s.bitIndex / 16) + 1) = c →
    verify p c = false →
    ∃ t, exec (.feed b) s = .next t ∧
      t = { s with
        buf := t.buf, blen := max s.blen (s.bitIndex + 1), alignAttempts := s.alignAttempts + 1
        response := .empty, events := [.bitObserved b, .diagnostic .checksumMismatch p c] } ∧
      Memory.read16 t.buf (2 * (s.bitIndex / 16)) = (p ++ c) <<< 1 ∧
      ∀ a, a ≠ 2 * (s.bitIndex / 16) → a ≠ 2 * (s.bitIndex / 16) + 1 →
        Memory.read t.buf a = Memory.read s.buf a

/-- An accepted word (R119): `FEED` runs the wire instruction that the window decodes to, on the state with
the bit stored; then `BLEN` grows by 16, the attempts are 0, and the message is emitted after the word's own
event, changed or not. -/
def Obligations.FeedRunsTheDecodedWord : Prop :=
  ∀ (b : Bit) (s : State), (s.bitIndex + 1) % 16 = 0 →
    verify (Memory.read (Memory.setBit s.buf s.bitIndex b) (2 * (s.bitIndex / 16)))
      (Memory.read (Memory.setBit s.buf s.bitIndex b) (2 * (s.bitIndex / 16) + 1)) = true →
    ∃ u msg, exec (decodeWord (Memory.read16 (Memory.setBit s.buf s.bitIndex b) (2 * (s.bitIndex / 16))))
        { s with buf := Memory.setBit s.buf s.bitIndex b, blen := max s.blen (s.bitIndex + 1)
                 bitIndex := s.bitIndex + 1 } = .next u ∧
      exec .readmsg u = .next { u with response := .message msg, events := [] } ∧
      exec (.feed b) s = .next { u with
        blen := max s.blen (s.bitIndex + 1) + 16, alignAttempts := 0
        events := .bitObserved b :: u.events ++ [.messageUpdated msg] } ∧
      u.bitIndex = s.bitIndex + 1 ∧ u.buf = Memory.setBit s.buf s.bitIndex b ∧ u.response = .empty

/-- "`feedBit` never blocks and never raises a fatal error" (R120): `FEED` completes in every state for both
bits, the parameters being unbounded (log 9). -/
def Obligations.FeedAlwaysCompletes : Prop :=
  ∀ (b : Bit) (s : State), ∃ t, exec (.feed b) s = .next t ∧ t.response = .empty ∧
    (t.bitIndex = s.bitIndex ∨ t.bitIndex = s.bitIndex + 1)

/-- The events of a `FEED` (R134, R141): `bitObserved` first; then nothing, or the `ChecksumMismatch`
diagnostic, or the one event of the word and `messageUpdated`; at most one diagnostic. -/
def Obligations.FeedEventsInOrder : Prop :=
  ∀ (b : Bit) (s t : State), exec (.feed b) s = .next t → ∃ es,
    t.events = .bitObserved b :: es ∧ (diagnostics t.events).length ≤ 1 ∧
    (es = [] ∨ (∃ p c, es = [.diagnostic .checksumMismatch p c] ∧ verify p c = false) ∨
      ∃ e msg, es = [e, .messageUpdated msg] ∧
        ((∃ k v p c, e = .fieldResolved k v p c ∧ verify p c = true) ∨
          ∃ p c, verify p c = true ∧
            (e = .diagnostic .positionOverflow p c ∨ e = .diagnostic .unsolicitedValue p c)))

/-- Every command other than `FEED` and `DECODE` emits no event (R141); so does a wire word of neither. -/
def Obligations.OtherCommandsEmitNothing : Prop :=
  ∀ (i : Instr) (s t : State), exec i s = .next t →
    (∀ b, i ≠ .feed b) → (∀ d, i ≠ .decode d) → (∀ p c, i ≠ .posw p c) → (∀ v c, i ≠ .valw v c) →
    t.events = []

/-- `CLEAR` (R124): every state element takes its reset value, whatever it held, with the empty response and no
event. -/
def Obligations.ClearStartsAFreshSession : Prop :=
  ∀ (s : State) (rest : List PortBeat),
    decodePort (.cmd 0x00000000#32 :: rest) = .instr .clear rest ∧
    ∃ t, exec .clear s = .next t ∧ t.buf = [] ∧ t.blen = 0 ∧ t.bitIndex = 0 ∧ t.alignAttempts = 0 ∧
      t.ctx.cur = none ∧ t.ctx.base = none ∧ (∀ p, t.ctx.outAt p = none) ∧
      t.session = State.reset.session ∧ t.response = .empty ∧ t.events = []

/-- `STATUS` (R125, R20): the status view, `MAXREC` being the largest recorded position; no state is
written. -/
def Obligations.StatusReadsTheView : Prop :=
  ∀ (s : State) (rest : List PortBeat),
    decodePort (.cmd 0x20000000#32 :: rest) = .instr .status rest ∧
    ∃ m : Option Pos,
      exec .status s = .next { s with
        response := .status ⟨s.bitIndex, s.alignAttempts, s.blen, s.ctx.cur, s.ctx.base, m⟩
        events := [] } ∧
      (m = none ↔ ∀ p, s.ctx.outAt p = none) ∧
      ∀ p, m = some p ↔
        s.ctx.outAt p ≠ none ∧ ∀ q : Pos, p.toNat < q.toNat → s.ctx.outAt q = none

/-- Movement of the cursor (R12, R123): one up or net zero on `FEED`, zero on `CLEAR`, unmoved by every other
instruction. -/
def Obligations.CursorMovesInThreeWays : Prop :=
  ∀ (i : Instr) (s t : State), exec i s = .next t →
    (∀ b, i = .feed b → t.bitIndex = s.bitIndex + 1 ∨
      (t.bitIndex = s.bitIndex ∧ t.alignAttempts = s.alignAttempts + 1)) ∧
    (i = .clear → t.bitIndex = 0) ∧
    ((∀ b, i ≠ .feed b) → i ≠ .clear → t.bitIndex = s.bitIndex)

/-- Who writes what (R11, R13, R14, R15, R16): the buffer and `BLEN` only `FEED`, `SETBIT`, `SHIFTWIN` and
`CLEAR`; the attempts only `FEED` and `CLEAR`; the interpretation context only the two decoders' words and
`CLEAR`; the port (the model's own field, log 1) no instruction. -/
def Obligations.EachElementHasItsWriters : Prop :=
  ∀ (i : Instr) (s t : State), exec i s = .next t →
    ((∀ b, i ≠ .feed b) → i ≠ .clear → (∀ j v, i ≠ .setbit j v) → (∀ a n, i ≠ .shiftwin a n) →
      t.buf = s.buf ∧ t.blen = s.blen) ∧
    ((∀ b, i ≠ .feed b) → i ≠ .clear → t.alignAttempts = s.alignAttempts) ∧
    ((∀ b, i ≠ .feed b) → i ≠ .clear → (∀ p c, i ≠ .posw p c) → (∀ v c, i ≠ .valw v c) →
      t.ctx = s.ctx) ∧
    t.port = s.port

/-- No retry cap (R121): fed one bit for ever from reset, the machine fails every check from the sixteenth
bit on, counts every one of them and resolves nothing. -/
def Obligations.ConstantInputNeverResolves : Prop :=
  ∀ (b : Bit) (n : Nat), 15 ≤ n →
    ∃ t, run n (State.reset.presented (feedBeats (List.replicate n b))) = .next t ∧
      t.alignAttempts = n - 15 ∧ t.bitIndex = 15 ∧ t.ctx = Context.fresh ∧
      exec .readmsg t = .next { t with response := .message [], events := [] }

/-- Streaming and batch agree on uncorrupted input (R112): for every message of at most 128 content bytes, fed
bit by bit from reset, no check fails and `READMSG` answers what `DECODE` answers, the message. -/
def Obligations.StreamingEqualsBatch : Prop :=
  ∀ (msg out : List Byte) (e : State), msg.length ≤ 128 → contentBytes msg = true →
    exec (.encode msg) State.reset = .next e → e.response = .bytes out →
    (∀ n, n ≤ 32 * msg.length →
      ∃ u, run n (State.reset.presented (feedBeats (bitsOf out))) = .next u ∧ u.alignAttempts = 0) ∧
    ∃ t d, run (32 * msg.length) (State.reset.presented (feedBeats (bitsOf out))) = .next t ∧
      exec .readmsg t = .next { t with response := .message (msg.map some), events := [] } ∧
      exec (.decode out) State.reset = .next d ∧ d.response = .message (msg.map some)

/-- Resynchronisation (R126): one spurious bit before the stream of a non-empty message makes the first check
fail, on the window `40 7F` or `C0 7F`, so that `alignAttempts` is 1 at the sixteenth bit; from the seventeenth
on it is 0, and the final message is the original. -/
def Obligations.OneSpuriousBitIsRecovered : Prop :=
  ∀ (msg out : List Byte) (e : State) (x : Bit), msg.length ≤ 128 → msg ≠ [] → contentBytes msg = true →
    exec (.encode msg) State.reset = .next e → e.response = .bytes out →
    (∃ u, run 16 (State.reset.presented (feedBeats (x :: bitsOf out))) = .next u ∧
      u.alignAttempts = 1 ∧
      u.events = [.bitObserved true, .diagnostic .checksumMismatch (if x then 0xC0 else 0x40) 0x7F]) ∧
    (∀ n, 17 ≤ n → n ≤ 1 + 32 * msg.length →
      ∃ u, run n (State.reset.presented (feedBeats (x :: bitsOf out))) = .next u ∧
        u.alignAttempts = 0) ∧
    ∃ t, run (1 + 32 * msg.length) (State.reset.presented (feedBeats (x :: bitsOf out))) = .next t ∧
      exec .readmsg t = .next { t with response := .message (msg.map some), events := [] }

/-- The shift-register form of R122 is equivalent to `FEED`: in a session that the invariants of R22 hold of,
registers that represent the state still represent it after `FEED`, with the same events; at reset the
cleared registers do. -/
def Obligations.FeedRefinesTheShiftRegister : Prop :=
  (∀ (r : ShiftReg) (s : State) (b : Bit), BufferOk s → SessionOk s → r.Represents s →
    ∃ t, exec (.feed b) s = .next t ∧ (r.feed Config.params b).1.Represents t ∧
      t.events = (r.feed Config.params b).2) ∧
  (⟨0, 0, 0, 0, Context.fresh⟩ : ShiftReg).Represents State.reset

/-! ## Invariants -/

/-- What a session begins with (R24), element by element: at reset, and after every `CLEAR`. -/
def Obligations.ResetValues : Prop :=
  State.reset.ctx.cur = none ∧ State.reset.ctx.base = none ∧
  (∀ p, State.reset.ctx.outAt p = none) ∧ State.reset.ctx.maxRec = none ∧
  State.reset.bitIndex = 0 ∧ State.reset.alignAttempts = 0 ∧ State.reset.blen = 0 ∧
  (∀ a, Memory.read State.reset.buf a = 0x00) ∧
  ∀ s : State, ∃ t, exec .clear s = .next t ∧ t.session = State.reset.session

/-- The buffer invariant and the session invariants hold at reset (R11, R22, R24). -/
def Obligations.InvariantsHoldAtReset : Prop := BufferOk State.reset ∧ SessionOk State.reset

/-- Every step keeps the buffer invariant from every state that has it: the canonical form (log 6), and zeros at
and beyond `BLEN` (R11, R80). -/
def Obligations.EveryStepKeepsTheBufferInvariant : Prop :=
  ∀ s t : State, BufferOk s → step s = .next t → BufferOk t

/-- Every step that runs neither `SETBIT` nor `SHIFTWIN` keeps the invariants of R22. -/
def Obligations.UndisturbedStepsKeepTheSessionInvariant : Prop :=
  ∀ s t : State, BufferOk s → SessionOk s →
    (∀ i rest, decodePort s.port = .instr i rest → leavesBuffer i = true) →
    step s = .next t → SessionOk t

/-- `SETBIT` and `SHIFTWIN` can break (a) and (f) of R22 only: every step from every state keeps (b), (c) and
(e). -/
def Obligations.EveryStepKeepsTheContextInvariant : Prop :=
  ∀ s t : State, (0 < s.alignAttempts → s.bitIndex % 16 = 15) →
    (∀ c, s.ctx.cur = some c → s.ctx.base = some c) →
    (∀ p v, s.ctx.outAt p = some v → v.toNat < 0x80) → step s = .next t →
    (0 < t.alignAttempts → t.bitIndex % 16 = 15) ∧
    (∀ c, t.ctx.cur = some c → t.ctx.base = some c) ∧
    ∀ p v, t.ctx.outAt p = some v → v.toNat < 0x80

/-! ## Encodings and the port -/

/-- Decode and encode agree for every well-formed instruction of both layers, every operand at every value the
encoding admits, with any beats after the command (R51, R52, R63, R65): with every `CMD_IDX_BITS` that the
command word has room for, the one taken (R8) among them. Where the other fields stand when an index field is
narrower is the model's choice (log 12). -/
def Obligations.DecodingAnEncodingGivesItBack : Prop :=
  Config.params.portFits = true ∧
  ∀ (P : Params) (i : Instr), P.portFits = true → i.wfFor P = true →
    decodeCodeFor P (encode i) = some i ∧
    ∀ beats rest, encode i = .port beats → decodePortFor P (beats ++ rest) = .instr i rest

/-- Each code has one meaning: what the port decodes to is well formed and was encoded by exactly the beats
taken, with every `CMD_IDX_BITS` (R8, log 12); and every one of the 65536 wire words is the encoding of what it
decodes to (R55, R63). -/
def Obligations.EncodingADecodingGivesItBack : Prop :=
  (∀ (P : Params) (beats rest : List PortBeat) (i : Instr), decodePortFor P beats = .instr i rest →
    i.wfFor P = true ∧ ∃ bs, encode i = .port bs ∧ beats = bs ++ rest) ∧
  ∀ w : Word16, encode (decodeWord w) = .wire w

/-- A command word is refused, `BadCommand`, exactly when it matches no row of the table of R63; no data beat
is consumed (R64) and no output is left (R18). How the run goes on after it is the model's form (log 5). -/
def Obligations.BadCommandExactlyWhenNoRowMatches : Prop :=
  ∀ (w : Word32) (rest : List PortBeat) (s : State),
    (decodePort (.cmd w :: rest) = .bad w ↔ ∀ r ∈ cmdRows, r.matches w = false) ∧
    (s.port = .cmd w :: rest → (∀ r ∈ cmdRows, r.matches w = false) →
      step s = .refused .badCommand ∧
      s.afterRefusal = { s with port := rest, response := .empty, events := [] })

/-- The rows of R63 do not overlap: no word matches two of them, and the row that matches carries the mnemonic
of the command decoded. -/
def Obligations.CommandRowsDoNotOverlap : Prop :=
  ∀ w : Word32,
    (∀ r ∈ cmdRows, ∀ r' ∈ cmdRows, r.matches w = true → r'.matches w = true → r = r') ∧
    ∀ c, decodeCmd w = some c → ∃ r ∈ cmdRows, r.matches w = true ∧ r.mnemonic = c.mnemonic

/-- Words written out from the spec's encodings decode to the commands they stand for (95_test_vectors.md P1,
P2, P4; 30_encoding.md R60). -/
def Obligations.SpecWordsDecode : Prop :=
  decodePort [.cmd 0x40000068] = .instr (.rev 0x68) [] ∧
  decodePort [.cmd 0x600080FE] = .instr (.verify 0x80 0xFE) [] ∧
  decodePort [.cmd 0x98000009] = .instr (.setbit 9 true) [] ∧
  decodePort [.cmd 0xA0000001] = .instr (.shiftwin 0 1) [] ∧
  decodePort [.cmd 0x10000001] = .instr (.feed true) [] ∧
  decodePort [.cmd 0xC0000002, .data 0x68, .data 0x69] = .instr (.encode [0x68, 0x69]) [] ∧
  decodeWord 0x80FE = .posw 0 0xFE ∧ decodeWord 0x68E9 = .valw 0x68 0xE9

/-- A step runs the decoded instruction: when a whole instruction stands at the front of the port, the step is
`exec` of it on the state with its beats taken and the outputs before it dropped; with nothing presented, or
with data beats still missing, nothing but the outputs changes (R18, R61, R145; log 1, log 2, log 4). -/
def Obligations.StepRunsTheDecodedInstruction : Prop :=
  ∀ s : State,
    (∀ i rest, decodePort s.port = .instr i rest →
      step s = exec i { s with port := rest, response := .empty, events := [] }) ∧
    (s.port = [] → step s = .next { s with response := .empty, events := [] }) ∧
    (decodePort s.port = .waiting → step s = .next { s with response := .empty, events := [] })

/-- A command waits for all its data beats and takes no more (R65, log 2): `ENCODE` with fewer beats than its
length presented changes nothing but the outputs, which no step keeps (R18, log 4), and with enough it runs on
exactly that many. -/
def Obligations.EncodeTakesItsDataBeats : Prop :=
  ∀ (len : BitVec 9) (bs : List Byte) (s : State),
    s.port = .cmd (0xC#4 ++ 0#19 ++ len) :: bs.map .data →
    (bs.length < len.toNat → step s = .next { s with response := .empty, events := [] }) ∧
    (len.toNat ≤ bs.length →
      step s = exec (.encode (bs.take len.toNat))
        { s with port := (bs.drop len.toNat).map .data, response := .empty, events := [] })

/-! ## The machine as a whole -/

/-- Outputs are not state and are not stored across commands (R18): no instruction, no step and no refusal
reads or keeps the response and the events before it (the two fields are the model's own, log 4; how a run goes
on after a refusal is the model's form, log 5). -/
def Obligations.OutputsAreNotRead : Prop :=
  ∀ (i : Instr) (s : State) (r : Response) (es : List Event),
    exec i { s with response := r, events := es } = exec i s ∧
    step { s with response := r, events := es } = step s ∧
    { s with response := r, events := es }.afterRefusal = s.afterRefusal ∧
    s.afterRefusal.response = .empty ∧ s.afterRefusal.events = [] ∧
    s.afterRefusal.session = s.session

/-- No instruction reads what stands on the port: with other beats presented it does the same and leaves them
(R5, R154; the port is the model's own field, log 1). -/
def Obligations.PortIsNotRead : Prop :=
  ∀ (i : Instr) (s : State) (beats : List PortBeat),
    (∀ t, exec i s = .next t → exec i { s with port := beats } = .next { t with port := beats }) ∧
    ∀ r, exec i s = .refused r → exec i { s with port := beats } = .refused r

/-- In every state every instruction has a step but for the two refusals of R138: `GETBIT` at or beyond
`BLEN` and `SHIFTWIN` on a window that is not wholly inside the buffer (R6, R138, R146; the parameters
unbounded, log 9). -/
def Obligations.OnlyBadIndicesAreRefused : Prop :=
  ∀ (i : Instr) (s : State),
    (∃ t, exec i s = .next t) ∨
    (exec i s = .refused .badIndex ∧
      ((∃ j, i = .getbit j ∧ s.blen ≤ j) ∨
        ∃ a n, i = .shiftwin a n ∧ (s.blen + 7) / 8 < a + 2))

/-- Conditions keep their kind (R130, R131, R135): every diagnostic a command reports is of one of the three
recoverable conditions, codes 2 to 4; an error response is `MessageTooLong`, code 1, and comes with no event and
an untouched session. -/
def Obligations.ConditionsKeepTheirKind : Prop :=
  ∀ (i : Instr) (s t : State), exec i s = .next t →
    (∀ c p k, Event.diagnostic c p k ∈ t.events → c.isRecoverable = true ∧ 2 ≤ c.code ∧ c.code ≤ 4) ∧
    ∀ c n, t.response = .error c n →
      c.isRecoverable = false ∧ c.code = 1 ∧ t.session = s.session ∧ t.events = []

/-- A finite `BUF_CAP` (R37): a `FEED` or a `SETBIT` that would make the buffer exceed it is refused, `Full`,
and within it both do what they do unbounded. -/
def Obligations.FiniteCapacityRefuses : Prop :=
  ∀ (cap : Nat) (s : State) (b : Bit) (i : Nat),
    (s.feedBit { Config.params with bufCap := some cap } b =
      if cap < (max s.blen (s.bitIndex + 1) + 16 + 7) / 8 then .refused .full else exec (.feed b) s) ∧
    (s.writeBufBit { Config.params with bufCap := some cap } i b =
      if cap ≤ i / 8 then .refused .full else exec (.setbit i b) s)
end

