-- ==== Sys2Proof/Laws/Fields.lean ====
section
/-! SUPPORT. Fields of concatenated bit vectors: what a field of `x ++ y` is when it lies in one part. The
widths are named arguments, so that a word of a fixed width can be read as a concatenation. -/

namespace Sys2Proof

/-- A field above the low part is a field of the high part. -/
theorem field_high {m n : Nat} (s l : Nat) (x : BitVec m) (y : BitVec n) (h : n ≤ s) :
    (x ++ y).extractLsb' s l = x.extractLsb' (s - n) l := by
  apply BitVec.eq_of_getLsbD_eq
  intro k hk
  rw [BitVec.getLsbD_extractLsb', BitVec.getLsbD_extractLsb', BitVec.getLsbD_append]
  have e : ¬ s + k < n := by omega
  have e2 : s + k - n = s - n + k := by omega
  simp [hk, e, e2]

/-- A field inside the low part is a field of it. -/
theorem field_low {m n : Nat} (s l : Nat) (x : BitVec m) (y : BitVec n) (h : s + l ≤ n) :
    (x ++ y).extractLsb' s l = y.extractLsb' s l := BitVec.extractLsb'_append_eq_of_add_le h

/-- The low part is the field of its width at 0. -/
theorem field_low_whole {m n : Nat} (x : BitVec m) (y : BitVec n) : (x ++ y).extractLsb' 0 n = y := by
  rw [field_low 0 n x y (by omega)]
  simp

/-- The high part is the field of its width above the low part. -/
theorem field_high_whole {m n : Nat} (x : BitVec m) (y : BitVec n) : (x ++ y).extractLsb' n m = x := by
  rw [field_high n m x y (Nat.le_refl n)]
  simp

/-- A word is the concatenation of its two parts. -/
theorem parts_append {m n : Nat} (w : BitVec (m + n)) :
    w.extractLsb' n m ++ w.extractLsb' 0 n = w := by
  apply BitVec.eq_of_getLsbD_eq
  intro k hk
  rw [BitVec.getLsbD_append, BitVec.getLsbD_extractLsb', BitVec.getLsbD_extractLsb']
  by_cases h : k < n
  · simp [h]
  · have e : n + (k - n) = k := by omega
    have e' : k - n < m := by omega
    simp [h, e, e']

@[simp] theorem getLsbD_ofBool_zero (b : Bool) : (BitVec.ofBool b).getLsbD 0 = b := by
  cases b <;> rfl

/-- A field of a field. -/
theorem field_field {w : Nat} (x : BitVec w) (s l s' l' : Nat) (h : s' + l' ≤ l) :
    (x.extractLsb' s l).extractLsb' s' l' = x.extractLsb' (s + s') l' := by
  apply BitVec.eq_of_getLsbD_eq
  intro k hk
  rw [BitVec.getLsbD_extractLsb', BitVec.getLsbD_extractLsb', BitVec.getLsbD_extractLsb']
  have e : s' + k < l := by omega
  simp [hk, e, Nat.add_assoc]

end Sys2Proof
end

