-- ==== Sys2Proof/Laws/Decode.lean ====
section
/-! SUPPORT. Laws of the command decoder: what a command word of each opcode decodes to, read off its
operand field (R62, R63), and the words of the commands that have operands. -/

namespace Sys2Proof

theorem opcode_of (op : BitVec 4) (x : BitVec 28) : (op ++ x : Word32).extractLsb' 28 4 = op :=
  field_high_whole (m := 4) (n := 28) op x

/-- An operand field of a command word. -/
theorem operand_field (op : BitVec 4) (x : BitVec 28) (s l : Nat) (h : s + l ≤ 28) :
    (op ++ x : Word32).extractLsb' s l = x.extractLsb' s l := field_low (m := 4) (n := 28) s l op x h

/-- The whole operand field of a command word. -/
theorem operand_whole (op : BitVec 4) (x : BitVec 28) : (op ++ x : Word32).extractLsb' 0 28 = x :=
  field_low_whole (m := 4) (n := 28) op x

/-- An operand bit of a command word. -/
theorem operand_bit (op : BitVec 4) (x : BitVec 28) (k : Nat) (h : k < 28) :
    (op ++ x : Word32).getLsbD k = x.getLsbD k := by
  rw [BitVec.getLsbD_append, if_pos h]

/-! ## Index fields -/

/-- An index field that answers a command: it is below its bound and carries its value. -/
theorem indexField_eq_some {n : Nat} {room : BitVec n} {width : Nat} {f : Nat → Cmd} {c : Cmd} :
    indexField room width f = some c ↔ room.toNat < 2 ^ width ∧ f room.toNat = c := by
  unfold indexField
  split <;> simp [*]

/-- An index field is refused exactly when a bit above it is set. -/
theorem indexField_eq_none {n : Nat} {room : BitVec n} {width : Nat} {f : Nat → Cmd} :
    indexField room width f = none ↔ 2 ^ width ≤ room.toNat := by
  unfold indexField
  split <;> simp <;> omega

/-- An index that fits the field and its room is read back. -/
theorem indexField_ofNat {n width i : Nat} (f : Nat → Cmd) (h : i < 2 ^ width) (hn : i < 2 ^ n) :
    indexField (BitVec.ofNat n i) width f = some (f i) := by
  rw [indexField_eq_some, BitVec.toNat_ofNat, Nat.mod_eq_of_lt hn]
  exact ⟨h, rfl⟩

/-! ## Command words, by opcode -/

/-- The machine's command decoder is the decoder with the parameters taken. -/
theorem decodeCmd_eq (w : Word32) : decodeCmd w = decodeCmdFor Config.params w := rfl

theorem decodeCmdFor_clear (P : Params) (x : BitVec 28) :
    decodeCmdFor P (0x0#4 ++ x) =
      whenZero x (.whole .clear) := by
  rw [decodeCmdFor, opcode_of]
  show whenZero ((0x0#4 ++ x : Word32).extractLsb' 0 28) _ = _
  rw [operand_whole]

theorem decodeCmdFor_status (P : Params) (x : BitVec 28) :
    decodeCmdFor P (0x2#4 ++ x) =
      whenZero x (.whole .status) := by
  rw [decodeCmdFor, opcode_of]
  show whenZero ((0x2#4 ++ x : Word32).extractLsb' 0 28) _ = _
  rw [operand_whole]

theorem decodeCmdFor_readmsg (P : Params) (x : BitVec 28) :
    decodeCmdFor P (0x3#4 ++ x) =
      whenZero x (.whole .readmsg) := by
  rw [decodeCmdFor, opcode_of]
  show whenZero ((0x3#4 ++ x : Word32).extractLsb' 0 28) _ = _
  rw [operand_whole]

theorem decodeCmdFor_readbits (P : Params) (x : BitVec 28) :
    decodeCmdFor P (0xB#4 ++ x) =
      whenZero x (.whole .readbits) := by
  rw [decodeCmdFor, opcode_of]
  show whenZero ((0xB#4 ++ x : Word32).extractLsb' 0 28) _ = _
  rw [operand_whole]

theorem decodeCmdFor_rev (P : Params) (x : BitVec 28) :
    decodeCmdFor P (0x4#4 ++ x) =
      whenZero (x.extractLsb' 8 20) (.whole (.rev (x.extractLsb' 0 8))) := by
  rw [decodeCmdFor, opcode_of]
  show whenZero ((0x4#4 ++ x : Word32).extractLsb' 8 20)
    (.whole (.rev ((0x4#4 ++ x : Word32).extractLsb' 0 8))) = _
  rw [operand_field _ _ 8 20 (by omega), operand_field _ _ 0 8 (by omega)]

theorem decodeCmdFor_csum (P : Params) (x : BitVec 28) :
    decodeCmdFor P (0x5#4 ++ x) =
      whenZero (x.extractLsb' 8 20) (.whole (.csum (x.extractLsb' 0 8))) := by
  rw [decodeCmdFor, opcode_of]
  show whenZero ((0x5#4 ++ x : Word32).extractLsb' 8 20)
    (.whole (.csum ((0x5#4 ++ x : Word32).extractLsb' 0 8))) = _
  rw [operand_field _ _ 8 20 (by omega), operand_field _ _ 0 8 (by omega)]

theorem decodeCmdFor_classify (P : Params) (x : BitVec 28) :
    decodeCmdFor P (0x7#4 ++ x) =
      whenZero (x.extractLsb' 8 20) (.whole (.classify (x.extractLsb' 0 8))) := by
  rw [decodeCmdFor, opcode_of]
  show whenZero ((0x7#4 ++ x : Word32).extractLsb' 8 20)
    (.whole (.classify ((0x7#4 ++ x : Word32).extractLsb' 0 8))) = _
  rw [operand_field _ _ 8 20 (by omega), operand_field _ _ 0 8 (by omega)]

theorem decodeCmdFor_verify (P : Params) (x : BitVec 28) :
    decodeCmdFor P (0x6#4 ++ x) =
      whenZero (x.extractLsb' 16 12)
        (.whole (.verify (x.extractLsb' 8 8) (x.extractLsb' 0 8))) := by
  rw [decodeCmdFor, opcode_of]
  show whenZero ((0x6#4 ++ x : Word32).extractLsb' 16 12)
    (.whole (.verify ((0x6#4 ++ x : Word32).extractLsb' 8 8) ((0x6#4 ++ x : Word32).extractLsb' 0 8))) = _
  rw [operand_field _ _ 16 12 (by omega), operand_field _ _ 8 8 (by omega),
    operand_field _ _ 0 8 (by omega)]

theorem decodeCmdFor_getbit (P : Params) (x : BitVec 28) :
    decodeCmdFor P (0x8#4 ++ x) = indexField x P.cmdIdxBits.index fun i => .whole (.getbit i) := by
  rw [decodeCmdFor, opcode_of]
  show indexField ((0x8#4 ++ x : Word32).extractLsb' 0 28) _ _ = _
  rw [operand_whole]

theorem decodeCmdFor_setbit (P : Params) (x : BitVec 28) :
    decodeCmdFor P (0x9#4 ++ x) =
      indexField (x.extractLsb' 0 27) P.cmdIdxBits.index fun i => .whole (.setbit i (x.getLsbD 27)) := by
  rw [decodeCmdFor, opcode_of]
  show indexField ((0x9#4 ++ x : Word32).extractLsb' 0 27) _
    (fun i => .whole (.setbit i ((0x9#4 ++ x : Word32).getLsbD 27))) = _
  rw [operand_field _ _ 0 27 (by omega), operand_bit _ _ 27 (by omega)]

theorem decodeCmdFor_shiftwin (P : Params) (x : BitVec 28) :
    decodeCmdFor P (0xA#4 ++ x) =
      indexField (x.extractLsb' 5 23) P.cmdIdxBits.offset fun a =>
        .whole (.shiftwin a (x.extractLsb' 0 5)) := by
  rw [decodeCmdFor, opcode_of]
  show indexField ((0xA#4 ++ x : Word32).extractLsb' 5 23) _
    (fun a => .whole (.shiftwin a ((0xA#4 ++ x : Word32).extractLsb' 0 5))) = _
  rw [operand_field _ _ 5 23 (by omega), operand_field _ _ 0 5 (by omega)]

theorem decodeCmdFor_feed (P : Params) (x : BitVec 28) :
    decodeCmdFor P (0x1#4 ++ x) =
      whenZero (x.extractLsb' 1 27) (.whole (.feed (x.getLsbD 0))) := by
  rw [decodeCmdFor, opcode_of]
  show whenZero ((0x1#4 ++ x : Word32).extractLsb' 1 27)
    (.whole (.feed ((0x1#4 ++ x : Word32).getLsbD 0))) = _
  rw [operand_field _ _ 1 27 (by omega), operand_bit _ _ 0 (by omega)]

theorem decodeCmdFor_encode (P : Params) (x : BitVec 28) :
    decodeCmdFor P (0xC#4 ++ x) =
      whenZero (x.extractLsb' 9 19) (.encode (x.extractLsb' 0 9).toNat) := by
  rw [decodeCmdFor, opcode_of]
  show whenZero ((0xC#4 ++ x : Word32).extractLsb' 9 19)
    (.encode ((0xC#4 ++ x : Word32).extractLsb' 0 9).toNat) = _
  rw [operand_field _ _ 9 19 (by omega), operand_field _ _ 0 9 (by omega)]

theorem decodeCmdFor_decode (P : Params) (x : BitVec 28) :
    decodeCmdFor P (0xD#4 ++ x) = indexField x P.cmdIdxBits.length .decode := by
  rw [decodeCmdFor, opcode_of]
  show indexField ((0xD#4 ++ x : Word32).extractLsb' 0 28) _ _ = _
  rw [operand_whole]

/-- Opcodes `0xE` and `0xF` are unassigned (R62). -/
theorem decodeCmdFor_unassigned (P : Params) (x : BitVec 28) :
    decodeCmdFor P (0xE#4 ++ x) = none ∧ decodeCmdFor P (0xF#4 ++ x) = none := by
  constructor <;> rw [decodeCmdFor, opcode_of] <;> rfl

/-! ## The words of the commands that have operands -/

theorem decodeCmdFor_rev_word (P : Params) (b : Byte) :
    decodeCmdFor P (0x4#4 ++ 0#20 ++ b) = some (.whole (.rev b)) := by
  rw [BitVec.append_assoc]
  show decodeCmdFor P (0x4#4 ++ (0#20 ++ b)) = _
  rw [decodeCmdFor_rev, field_high_whole (m := 20) (n := 8), field_low_whole (m := 20) (n := 8)]
  rfl

theorem decodeCmdFor_csum_word (P : Params) (b : Byte) :
    decodeCmdFor P (0x5#4 ++ 0#20 ++ b) = some (.whole (.csum b)) := by
  rw [BitVec.append_assoc]
  show decodeCmdFor P (0x5#4 ++ (0#20 ++ b)) = _
  rw [decodeCmdFor_csum, field_high_whole (m := 20) (n := 8), field_low_whole (m := 20) (n := 8)]
  rfl

theorem decodeCmdFor_classify_word (P : Params) (b : Byte) :
    decodeCmdFor P (0x7#4 ++ 0#20 ++ b) = some (.whole (.classify b)) := by
  rw [BitVec.append_assoc]
  show decodeCmdFor P (0x7#4 ++ (0#20 ++ b)) = _
  rw [decodeCmdFor_classify, field_high_whole (m := 20) (n := 8), field_low_whole (m := 20) (n := 8)]
  rfl

theorem decodeCmdFor_verify_word (P : Params) (p c : Byte) :
    decodeCmdFor P (0x6#4 ++ 0#12 ++ p ++ c) = some (.whole (.verify p c)) := by
  rw [BitVec.append_assoc, BitVec.append_assoc]
  show decodeCmdFor P (0x6#4 ++ (0#12 ++ (p ++ c))) = _
  rw [decodeCmdFor_verify, field_high_whole (m := 12) (n := 16),
    field_low (m := 12) (n := 16) 8 8 _ _ (by omega), field_low (m := 12) (n := 16) 0 8 _ _ (by omega),
    field_high_whole (m := 8) (n := 8), field_low_whole (m := 8) (n := 8)]
  rfl

theorem decodeCmdFor_getbit_word {P : Params} {i : Nat} (h : i < 2 ^ P.cmdIdxBits.index) (hi : i < 2 ^ 28) :
    decodeCmdFor P (0x8#4 ++ BitVec.ofNat 28 i) = some (.whole (.getbit i)) := by
  rw [decodeCmdFor_getbit, indexField_ofNat _ h hi]

theorem decodeCmdFor_setbit_word {P : Params} {i : Nat} (v : Bit) (h : i < 2 ^ P.cmdIdxBits.index)
    (hi : i < 2 ^ 27) :
    decodeCmdFor P (0x9#4 ++ BitVec.ofBool v ++ BitVec.ofNat 27 i) = some (.whole (.setbit i v)) := by
  rw [BitVec.append_assoc]
  show decodeCmdFor P (0x9#4 ++ (BitVec.ofBool v ++ BitVec.ofNat 27 i)) = _
  rw [decodeCmdFor_setbit, field_low_whole (m := 1) (n := 27), indexField_ofNat _ h hi,
    BitVec.getLsbD_append]
  simp

theorem decodeCmdFor_shiftwin_word {P : Params} {a : Nat} (n : BitVec 5) (h : a < 2 ^ P.cmdIdxBits.offset)
    (ha : a < 2 ^ 23) :
    decodeCmdFor P (0xA#4 ++ BitVec.ofNat 23 a ++ n) = some (.whole (.shiftwin a n)) := by
  rw [BitVec.append_assoc]
  show decodeCmdFor P (0xA#4 ++ (BitVec.ofNat 23 a ++ n)) = _
  rw [decodeCmdFor_shiftwin, field_high_whole (m := 23) (n := 5), field_low_whole (m := 23) (n := 5),
    indexField_ofNat _ h ha]

theorem decodeCmdFor_encode_word (P : Params) (n : BitVec 9) :
    decodeCmdFor P (0xC#4 ++ 0#19 ++ n) = some (.encode n.toNat) := by
  rw [BitVec.append_assoc]
  show decodeCmdFor P (0xC#4 ++ (0#19 ++ n)) = _
  rw [decodeCmdFor_encode, field_high_whole (m := 19) (n := 9), field_low_whole (m := 19) (n := 9)]
  rfl

theorem decodeCmdFor_feed_word (P : Params) (b : Bit) :
    decodeCmdFor P (0x1#4 ++ 0#27 ++ BitVec.ofBool b) = some (.whole (.feed b)) := by
  cases b <;> rfl

theorem decodeCmdFor_decode_word {P : Params} {len : Nat} (h : len < 2 ^ P.cmdIdxBits.length)
    (hl : len < 2 ^ 28) :
    decodeCmdFor P (0xD#4 ++ BitVec.ofNat 28 len) = some (.decode len) := by
  rw [decodeCmdFor_decode, indexField_ofNat _ h hl]

theorem decodeWord_posw (p : Pos) (c : Byte) : decodeWord (1#1 ++ p ++ c) = .posw p c := by
  unfold decodeWord
  have h : (1#1 ++ p ++ c : Word16).getLsbD 15 = true := by
    rw [BitVec.getLsbD_append, BitVec.getLsbD_append]
    rfl
  rw [if_pos h, field_high (m := 8) (n := 8) 8 7 (1#1 ++ p) c (by omega),
    field_low_whole (m := 8) (n := 8), field_low_whole (m := 1) (n := 7)]

theorem decodeWord_valw (v : Pos) (c : Byte) : decodeWord (0#1 ++ v ++ c) = .valw v c := by
  unfold decodeWord
  have h : ¬ (0#1 ++ v ++ c : Word16).getLsbD 15 = true := by
    rw [BitVec.getLsbD_append, BitVec.getLsbD_append]
    exact Bool.false_ne_true
  rw [if_neg h, field_high (m := 8) (n := 8) 8 7 (0#1 ++ v) c (by omega),
    field_low_whole (m := 8) (n := 8), field_low_whole (m := 1) (n := 7)]

end Sys2Proof
end

