-- ==== Sys2Proof/Laws/Operands.lean ====
section
/-! SUPPORT. Laws of the pure functions: reversal, checksum, kind, frames, bit sequences. -/

namespace Sys2Proof.Machine

/-- Bit `k` of the reversal is bit `7 - k` (R70). -/
theorem rev_getLsbD (b : Byte) (k : Nat) (h : k < 8) : (rev b).getLsbD k = b.getLsbD (7 - k) := by
  rw [rev, BitVec.getLsbD_reverse, BitVec.getMsbD]
  simp [h]

@[simp] theorem rev_rev (b : Byte) : rev (rev b) = b := by
  apply BitVec.eq_of_getLsbD_eq
  intro k hk
  rw [rev_getLsbD _ _ hk, rev_getLsbD _ _ (by omega)]
  congr 1
  omega

/-- Bit `k` of the checksum is the complement of payload bit `7 - k` (R71). -/
theorem csum_getLsbD (b : Byte) (k : Nat) (h : k < 8) : (csum b).getLsbD k = !b.getLsbD (7 - k) := by
  rw [csum, rev_getLsbD _ _ h, BitVec.getLsbD_not]
  simp
  omega

/-- The checksum of a checksum is the payload (R71). -/
@[simp] theorem csum_csum (b : Byte) : csum (csum b) = b := by
  apply BitVec.eq_of_getLsbD_eq
  intro k hk
  rw [csum_getLsbD _ _ hk, csum_getLsbD _ _ (by omega), Bool.not_not]
  congr 1
  omega

theorem csum_inj {a b : Byte} (h : csum a = csum b) : a = b := by
  rw [← csum_csum a, h, csum_csum]

theorem verify_iff (p c : Byte) : verify p c = true ↔ c = csum p := by simp [verify]

@[simp] theorem verify_csum (p : Byte) : verify p (csum p) = true := by simp [verify]

@[simp] theorem isPos_posPayload (p : Pos) : isPos (posPayload p) = true := by
  revert p
  decide

@[simp] theorem isPos_valPayload (v : Pos) : isPos (valPayload v) = false := by
  revert v
  decide

@[simp] theorem posOf_posPayload (p : Pos) : posOf (posPayload p) = p := by
  simp only [posOf, posPayload]
  rw [BitVec.extractLsb'_append_eq_of_add_le (by omega)]
  simp

@[simp] theorem posOf_valPayload (v : Pos) : posOf (valPayload v) = v := by
  simp only [posOf, valPayload]
  rw [BitVec.extractLsb'_append_eq_of_add_le (by omega)]
  simp

/-- A payload whose kind bit is set is the payload of its position (R51). -/
theorem posPayload_posOf {b : Byte} (h : isPos b = true) : posPayload (posOf b) = b := by
  revert h
  revert b
  decide

/-- A payload whose kind bit is clear is the payload of its low seven bits (R52). -/
theorem valPayload_posOf {b : Byte} (h : isPos b = false) : valPayload (posOf b) = b := by
  revert h
  revert b
  decide

/-- A byte is a content byte, below `0x80`, exactly when its kind bit is clear (R52). -/
theorem isPos_eq_false_iff (b : Byte) : isPos b = false ↔ b.toNat < 0x80 := by
  revert b
  decide

@[simp] theorem posIdx_val (p : Pos) : (posIdx p).val = p.toNat := rfl

/-- The position of an index below 128. -/
theorem ofNat_toNat_pos {i : Nat} (h : i < 128) : (BitVec.ofNat 7 i).toNat = i := by
  rw [BitVec.toNat_ofNat]
  exact Nat.mod_eq_of_lt h

@[simp] theorem hiByte_wordOf (h l : Byte) : hiByte (wordOf h l) = h := by
  apply BitVec.eq_of_getLsbD_eq
  intro k hk
  have e : ¬ 8 + k < 8 := by omega
  rw [hiByte, wordOf, BitVec.getLsbD_extractLsb', BitVec.getLsbD_append]
  simp only [hk, e, decide_true, Bool.true_and, if_false, Nat.add_sub_cancel_left]

@[simp] theorem loByte_wordOf (h l : Byte) : loByte (wordOf h l) = l := by
  simp only [loByte, wordOf]
  rw [BitVec.extractLsb'_append_eq_of_add_le (by omega)]
  simp

@[simp] theorem wordOf_hiByte_loByte (w : Word16) : wordOf (hiByte w) (loByte w) = w := by
  apply BitVec.eq_of_getLsbD_eq
  intro k hk
  simp only [wordOf, hiByte, loByte, BitVec.getLsbD_append, BitVec.getLsbD_extractLsb']
  by_cases h : k < 8
  · simp [h]
  · have : k - 8 < 8 := by omega
    have e : 8 + (k - 8) = k := by omega
    simp [h, this, e]

@[simp] theorem frame_length (i : Nat) (v : Byte) : (frame i v).length = 4 := rfl

/-- The frames of a message are four bytes for each byte (R90). -/
@[simp] theorem framesFrom_length (i : Nat) (msg : List Byte) :
    (framesFrom i msg).length = 4 * msg.length := by
  induction msg generalizing i with
  | nil => rfl
  | cons v msg ih => simp [framesFrom, ih]; omega

@[simp] theorem byteBits_length (b : Byte) : (byteBits b).length = 8 := by simp [byteBits]

@[simp] theorem bitsOf_nil : bitsOf [] = [] := rfl

@[simp] theorem bitsOf_cons (b : Byte) (bs : List Byte) : bitsOf (b :: bs) = byteBits b ++ bitsOf bs := rfl

@[simp] theorem bitsOf_append (as bs : List Byte) : bitsOf (as ++ bs) = bitsOf as ++ bitsOf bs := by
  simp [bitsOf]

@[simp] theorem bitsOf_length (bs : List Byte) : (bitsOf bs).length = 8 * bs.length := by
  induction bs with
  | nil => rfl
  | cons b bs ih => simp [ih]; omega

end Sys2Proof.Machine
end

