-- ==== Sys2Proof/Laws/State.lean ====
section
/-! SUPPORT. One lemma for each field of each update of State, true by definition, and what the ends of a
command answer. No later proof unfolds a record update. -/

namespace Sys2Proof.Machine

/-! ## The outputs are dropped -/

section DropOutputs
variable (s : State)
@[simp] theorem State.dropOutputs_buf : s.dropOutputs.buf = s.buf := rfl
@[simp] theorem State.dropOutputs_blen : s.dropOutputs.blen = s.blen := rfl
@[simp] theorem State.dropOutputs_bitIndex : s.dropOutputs.bitIndex = s.bitIndex := rfl
@[simp] theorem State.dropOutputs_alignAttempts : s.dropOutputs.alignAttempts = s.alignAttempts := rfl
@[simp] theorem State.dropOutputs_ctx : s.dropOutputs.ctx = s.ctx := rfl
@[simp] theorem State.dropOutputs_port : s.dropOutputs.port = s.port := rfl
@[simp] theorem State.dropOutputs_response : s.dropOutputs.response = .empty := rfl
@[simp] theorem State.dropOutputs_events : s.dropOutputs.events = [] := rfl
@[simp] theorem State.dropOutputs_session : s.dropOutputs.session = s.session := rfl
@[simp] theorem State.dropOutputs_dropOutputs : s.dropOutputs.dropOutputs = s.dropOutputs := rfl
end DropOutputs

/-! ## The session of a state -/

section SessionFields
variable (s : State)
@[simp] theorem State.session_buf : s.session.buf = s.buf := rfl
@[simp] theorem State.session_blen : s.session.blen = s.blen := rfl
@[simp] theorem State.session_bitIndex : s.session.bitIndex = s.bitIndex := rfl
@[simp] theorem State.session_alignAttempts : s.session.alignAttempts = s.alignAttempts := rfl
@[simp] theorem State.session_ctx : s.session.ctx = s.ctx := rfl
end SessionFields

/-- `STREAM_LEN` with the parameters taken: the bytes of the buffer up to the cursor (R100 (b), D9). -/
@[simp] theorem streamLen_params (x : Session) : Config.params.streamLen x = x.bitIndex / 8 := rfl

/-! ## The port is taken -/

section Taking
variable (s : State) (rest : List PortBeat)
@[simp] theorem State.taking_buf : (s.taking rest).buf = s.buf := rfl
@[simp] theorem State.taking_blen : (s.taking rest).blen = s.blen := rfl
@[simp] theorem State.taking_bitIndex : (s.taking rest).bitIndex = s.bitIndex := rfl
@[simp] theorem State.taking_alignAttempts : (s.taking rest).alignAttempts = s.alignAttempts := rfl
@[simp] theorem State.taking_ctx : (s.taking rest).ctx = s.ctx := rfl
@[simp] theorem State.taking_port : (s.taking rest).port = rest := rfl
@[simp] theorem State.taking_response : (s.taking rest).response = .empty := rfl
@[simp] theorem State.taking_events : (s.taking rest).events = [] := rfl
@[simp] theorem State.taking_session : (s.taking rest).session = s.session := rfl
@[simp] theorem State.taking_taking (r : List PortBeat) : (s.taking rest).taking r = s.taking r := rfl
end Taking

/-! ## A bit of the buffer is written -/

section PutBufBit
variable (s : State) (i : Nat) (v : Bit)
@[simp] theorem State.putBufBit_buf : (s.putBufBit i v).buf = Memory.setBit s.buf i v := rfl
@[simp] theorem State.putBufBit_blen : (s.putBufBit i v).blen = max s.blen (i + 1) := rfl
@[simp] theorem State.putBufBit_bitIndex : (s.putBufBit i v).bitIndex = s.bitIndex := rfl
@[simp] theorem State.putBufBit_alignAttempts : (s.putBufBit i v).alignAttempts = s.alignAttempts := rfl
@[simp] theorem State.putBufBit_ctx : (s.putBufBit i v).ctx = s.ctx := rfl
@[simp] theorem State.putBufBit_port : (s.putBufBit i v).port = s.port := rfl
@[simp] theorem State.putBufBit_response : (s.putBufBit i v).response = s.response := rfl
@[simp] theorem State.putBufBit_events : (s.putBufBit i v).events = s.events := rfl
end PutBufBit

/-! ## A window is shifted -/

section ShiftBufWindow
variable (s : State) (a n : Nat)
@[simp] theorem State.shiftBufWindow_buf : (s.shiftBufWindow a n).buf = Memory.shiftWindow s.buf a n := rfl
@[simp] theorem State.shiftBufWindow_blen : (s.shiftBufWindow a n).blen = s.blen := rfl
@[simp] theorem State.shiftBufWindow_bitIndex : (s.shiftBufWindow a n).bitIndex = s.bitIndex := rfl
@[simp] theorem State.shiftBufWindow_alignAttempts :
    (s.shiftBufWindow a n).alignAttempts = s.alignAttempts := rfl
@[simp] theorem State.shiftBufWindow_ctx : (s.shiftBufWindow a n).ctx = s.ctx := rfl
@[simp] theorem State.shiftBufWindow_port : (s.shiftBufWindow a n).port = s.port := rfl
@[simp] theorem State.shiftBufWindow_response : (s.shiftBufWindow a n).response = s.response := rfl
@[simp] theorem State.shiftBufWindow_events : (s.shiftBufWindow a n).events = s.events := rfl
end ShiftBufWindow

/-! ## Step 1 of FEED -/

section StoreBit
variable (s : State) (bit : Bit)
@[simp] theorem State.storeBit_buf : (s.storeBit bit).buf = Memory.setBit s.buf s.bitIndex bit := rfl
@[simp] theorem State.storeBit_blen : (s.storeBit bit).blen = max s.blen (s.bitIndex + 1) := rfl
@[simp] theorem State.storeBit_bitIndex : (s.storeBit bit).bitIndex = s.bitIndex + 1 := rfl
@[simp] theorem State.storeBit_alignAttempts : (s.storeBit bit).alignAttempts = s.alignAttempts := rfl
@[simp] theorem State.storeBit_ctx : (s.storeBit bit).ctx = s.ctx := rfl
@[simp] theorem State.storeBit_port : (s.storeBit bit).port = s.port := rfl
@[simp] theorem State.storeBit_response : (s.storeBit bit).response = s.response := rfl
@[simp] theorem State.storeBit_events : (s.storeBit bit).events = s.events := rfl
end StoreBit

/-! ## Step 4 of FEED -/

section Slide
variable (s : State)
@[simp] theorem State.slide_buf :
    s.slide.buf = Memory.shiftWindow s.buf (windowOffset s.bitIndex) 1 := rfl
@[simp] theorem State.slide_blen : s.slide.blen = s.blen := rfl
@[simp] theorem State.slide_bitIndex : s.slide.bitIndex = s.bitIndex - 1 := rfl
@[simp] theorem State.slide_alignAttempts : s.slide.alignAttempts = s.alignAttempts + 1 := rfl
@[simp] theorem State.slide_ctx : s.slide.ctx = s.ctx := rfl
@[simp] theorem State.slide_port : s.slide.port = s.port := rfl
@[simp] theorem State.slide_response : s.slide.response = s.response := rfl
@[simp] theorem State.slide_events : s.slide.events = s.events := rfl
end Slide

/-! ## Step 5 of FEED -/

section AcceptWord
variable (s : State)
@[simp] theorem State.acceptWord_buf : s.acceptWord.buf = s.buf := rfl
@[simp] theorem State.acceptWord_blen : s.acceptWord.blen = s.blen + 16 := rfl
@[simp] theorem State.acceptWord_bitIndex : s.acceptWord.bitIndex = s.bitIndex := rfl
@[simp] theorem State.acceptWord_alignAttempts : s.acceptWord.alignAttempts = 0 := rfl
@[simp] theorem State.acceptWord_ctx : s.acceptWord.ctx = s.ctx := rfl
@[simp] theorem State.acceptWord_port : s.acceptWord.port = s.port := rfl
@[simp] theorem State.acceptWord_response : s.acceptWord.response = s.response := rfl
@[simp] theorem State.acceptWord_events : s.acceptWord.events = s.events := rfl
end AcceptWord

/-! ## A word is interpreted on the session's context -/

section InterpretWord
variable (P : Params) (s : State) (p c : Byte)
@[simp] theorem State.interpretWord_buf : (s.interpretWord P p c).1.buf = s.buf := rfl
@[simp] theorem State.interpretWord_blen : (s.interpretWord P p c).1.blen = s.blen := rfl
@[simp] theorem State.interpretWord_bitIndex : (s.interpretWord P p c).1.bitIndex = s.bitIndex := rfl
@[simp] theorem State.interpretWord_alignAttempts :
    (s.interpretWord P p c).1.alignAttempts = s.alignAttempts := rfl
@[simp] theorem State.interpretWord_ctx :
    (s.interpretWord P p c).1.ctx = (interpret P s.ctx p c (P.streamLen s.session)).1 := rfl
@[simp] theorem State.interpretWord_port : (s.interpretWord P p c).1.port = s.port := rfl
@[simp] theorem State.interpretWord_response : (s.interpretWord P p c).1.response = s.response := rfl
@[simp] theorem State.interpretWord_events : (s.interpretWord P p c).1.events = s.events := rfl
@[simp] theorem State.interpretWord_emitted :
    (s.interpretWord P p c).2 = (interpret P s.ctx p c (P.streamLen s.session)).2 := rfl
end InterpretWord

/-! ## Words presented -/

section Present
variable (s : State)
@[simp] theorem State.presentCommand_port (w : Word32) :
    (s.presentCommand w).port = portLayout w ++ s.port := rfl
@[simp] theorem State.presentCommand_ctx (w : Word32) : (s.presentCommand w).ctx = s.ctx := rfl
@[simp] theorem State.presentCommand_buf (w : Word32) : (s.presentCommand w).buf = s.buf := rfl
@[simp] theorem State.presentCommand_blen (w : Word32) : (s.presentCommand w).blen = s.blen := rfl
@[simp] theorem State.presentCommand_bitIndex (w : Word32) :
    (s.presentCommand w).bitIndex = s.bitIndex := rfl
@[simp] theorem State.presentWire_ctx (w : Word16) : (s.presentWire w).ctx = s.ctx := rfl
@[simp] theorem State.presentWire_bitIndex (w : Word16) :
    (s.presentWire w).bitIndex = 8 * s.woff + 15 := rfl
@[simp] theorem State.presentWire_alignAttempts (w : Word16) :
    (s.presentWire w).alignAttempts = s.alignAttempts := rfl
end Present

/-! ## Contexts -/

section ContextUpdates
variable (c : Context) (p : Pos) (v : Byte)
@[simp] theorem Context.record_cur : (c.record p v).cur = c.cur := rfl
@[simp] theorem Context.record_base : (c.record p v).base = c.base := rfl
@[simp] theorem Context.record_out : (c.record p v).out = c.out.set (posIdx p) (some v) := rfl
@[simp] theorem Context.fresh_cur : Context.fresh.cur = none := rfl
@[simp] theorem Context.fresh_base : Context.fresh.base = none := rfl

/-- What `OUT` holds after a byte is recorded (R101). -/
theorem Context.record_outAt (q : Pos) :
    (c.record p v).outAt q = if q = p then some v else c.outAt q := by
  simp only [Context.outAt, Context.record_out, Fin.getElem_fin, Vector.getElem_set, posIdx_val]
  by_cases h : q = p
  · simp [h]
  · have : p.toNat ≠ q.toNat := fun e => h (BitVec.eq_of_toNat_eq e.symm)
    simp [h, this]

@[simp] theorem Context.fresh_outAt : Context.fresh.outAt p = none := by
  simp [Context.outAt, Context.fresh]
end ContextUpdates

/-! ## How a command ends -/

/-- A command that completes answers its state with its response and its events (R6 (a)). -/
@[simp] theorem State.done_eq_next (s t : State) (r : Response) (es : List Event) :
    s.done r es = .next t ↔ t = { s with response := r, events := es } := by
  unfold State.done
  constructor
  · intro h; injection h with h; exact h.symm
  · intro h; rw [h]

theorem State.done_ne_refused (s : State) (r : Response) (es : List Event) (k : Refusal) :
    s.done r es ≠ .refused k := by
  unfold State.done; intro h; cases h

/-- The error of `ENCODE` answers the state unchanged but for the outputs (R6 (b), R135). -/
@[simp] theorem State.raise_eq_next (s t : State) (c : Condition) (n : Nat) :
    s.raise c n = .next t ↔ t = { s with response := .error c n, events := [] } := by
  simp [State.raise]

end Sys2Proof.Machine
end

