-- ==== Sys2Proof/Laws/Memory.lean ====
section
/-! SUPPORT. Laws of the buffer's memory: read after write, the canonical form, bits, windows. -/

namespace Sys2Proof.Machine

/-! ## Bytes -/

@[simp] theorem Memory.read_nil (a : Nat) : Memory.read [] a = 0 := rfl

theorem Memory.wfFrom_cons {lo k : Nat} {v : Byte} {m : Memory} :
    Memory.wfFrom lo ((k, v) :: m) = true ↔ lo ≤ k ∧ v ≠ 0 ∧ Memory.wfFrom (k + 1) m = true := by
  simp [Memory.wfFrom]

theorem Memory.wfFrom_mono {lo lo' : Nat} {m : Memory} (h : lo' ≤ lo)
    (hm : Memory.wfFrom lo m = true) : Memory.wfFrom lo' m = true := by
  cases m with
  | nil => rfl
  | cons c m =>
    obtain ⟨k, v⟩ := c
    rw [Memory.wfFrom_cons] at *
    exact ⟨by omega, hm.2⟩

/-- Below the first address of a canonical memory every byte reads as zero. -/
theorem Memory.read_of_lt {lo a : Nat} {m : Memory} (hm : Memory.wfFrom lo m = true) (h : a < lo) :
    Memory.read m a = 0 := by
  cases m with
  | nil => rfl
  | cons c m =>
    obtain ⟨k, v⟩ := c
    rw [Memory.wfFrom_cons] at hm
    have h1 : k ≠ a := by omega
    have h2 : a < k := by omega
    simp [Memory.read, h1, h2]

theorem Memory.write_wfFrom {lo a : Nat} {m : Memory} (v : Byte)
    (hm : Memory.wfFrom lo m = true) (h : lo ≤ a) : Memory.wfFrom lo (Memory.write m a v) = true := by
  induction m generalizing lo with
  | nil =>
    simp only [Memory.write]
    split
    · rfl
    · exact Memory.wfFrom_cons.mpr ⟨h, ‹_›, rfl⟩
  | cons c m ih =>
    obtain ⟨k, w⟩ := c
    have hm' := Memory.wfFrom_cons.mp hm
    simp only [Memory.write]
    split
    · split
      · exact hm
      · rw [Memory.wfFrom_cons]
        exact ⟨h, ‹_›, Memory.wfFrom_cons.mpr ⟨by omega, hm'.2⟩⟩
    · split
      · subst a
        split
        · exact Memory.wfFrom_mono (by omega) hm'.2.2
        · exact Memory.wfFrom_cons.mpr ⟨h, ‹_›, hm'.2.2⟩
      · exact Memory.wfFrom_cons.mpr ⟨hm'.1, hm'.2.1, ih hm'.2.2 (by omega)⟩

/-- Every write keeps the canonical form. -/
theorem Memory.write_wf {m : Memory} (a : Nat) (v : Byte) (hm : Memory.wf m = true) :
    Memory.wf (Memory.write m a v) = true := Memory.write_wfFrom v hm (Nat.zero_le a)

theorem Memory.read_write_from {lo : Nat} {m : Memory} (a b : Nat) (v : Byte)
    (hm : Memory.wfFrom lo m = true) :
    Memory.read (Memory.write m a v) b = if b = a then v else Memory.read m b := by
  induction m generalizing lo with
  | nil =>
    simp only [Memory.write]
    split
    · split <;> simp_all
    · simp only [Memory.read]
      by_cases e : b = a
      · simp [e]
      · simp [e, Ne.symm e]
  | cons c m ih =>
    obtain ⟨k, w⟩ := c
    have hm' := Memory.wfFrom_cons.mp hm
    simp only [Memory.write]
    split
    · split
      · by_cases e : b = a
        · rw [if_pos e, e, ‹v = 0›]
          exact Memory.read_of_lt (Memory.wfFrom_cons.mpr ⟨Nat.le_refl k, hm'.2⟩) ‹_›
        · simp [e]
      · by_cases e : b = a
        · simp [e, Memory.read]
        · rw [Memory.read]
          simp only [e, if_false, Ne.symm e]
          split
          · have h1 : k ≠ b := by omega
            have h2 : b < k := by omega
            simp [Memory.read, h1, h2]
          · rfl
    · split
      · subst a
        split
        · by_cases e : b = k
          · simp only [e, if_true]
            rw [Memory.read_of_lt hm'.2.2 (by omega)]
            simp [*]
          · simp only [e, if_false, Memory.read, Ne.symm e]
            split
            · exact Memory.read_of_lt hm'.2.2 (by omega)
            · rfl
        · by_cases e : b = k
          · simp [e, Memory.read]
          · simp [e, Ne.symm e, Memory.read]
      · simp only [Memory.read]
        split
        · have : b ≠ a := by omega
          simp [this]
        · split
          · have : b ≠ a := by omega
            simp [this]
          · exact ih hm'.2.2

/-- Read after write (R40): the byte written there, and every other byte as before. -/
theorem Memory.read_write {m : Memory} (a b : Nat) (v : Byte) (hm : Memory.wf m = true) :
    Memory.read (Memory.write m a v) b = if b = a then v else Memory.read m b :=
  Memory.read_write_from a b v hm

/-- Canonical memories that read alike are the same list. -/
theorem Memory.ext_of_wf {m m' : Memory} {lo : Nat} (hm : Memory.wfFrom lo m = true)
    (hm' : Memory.wfFrom lo m' = true) (h : ∀ a, Memory.read m a = Memory.read m' a) : m = m' := by
  induction m generalizing lo m' with
  | nil =>
    cases m' with
    | nil => rfl
    | cons c m' =>
      obtain ⟨k, v⟩ := c
      have := Memory.wfFrom_cons.mp hm'
      have := h k
      simp_all [Memory.read]
  | cons c m ih =>
    obtain ⟨k, v⟩ := c
    have w := Memory.wfFrom_cons.mp hm
    cases m' with
    | nil =>
      have := h k
      simp_all [Memory.read]
    | cons c' m' =>
      obtain ⟨k', v'⟩ := c'
      have w' := Memory.wfFrom_cons.mp hm'
      have hk : k = k' := by
        rcases Nat.lt_trichotomy k k' with l | l | l
        · have := h k
          have e : k' ≠ k := by omega
          simp [Memory.read, e, l] at this
          exact absurd this w.2.1
        · exact l
        · have := h k'
          have e : k ≠ k' := by omega
          simp [Memory.read, e, l] at this
          exact absurd this.symm w'.2.1
      subst hk
      have hv : v = v' := by simpa [Memory.read] using h k
      subst hv
      congr 1
      apply ih w.2.2 w'.2.2
      intro a
      by_cases l : k < a
      · have := h a
        have e : k ≠ a := by omega
        have e' : ¬ a < k := by omega
        simpa [Memory.read, e, e'] using this
      · rw [Memory.read_of_lt w.2.2 (by omega), Memory.read_of_lt w'.2.2 (by omega)]

/-! ## Bits -/

/-- Bit `k` of a byte with buffer bit `i` written: the written bit at place `7 - (i mod 8)`, every other
bit as before (R35, R82). -/
theorem putBit_getLsbD (b : Byte) (i : Nat) (v : Bit) (k : Nat) (hk : k < 8) :
    (putBit b i v).getLsbD k = if k = 7 - i % 8 then v else b.getLsbD k := by
  have hi : i % 8 < 8 := Nat.mod_lt _ (by omega)
  have hm : (bitMask i).getLsbD k = decide (k = 7 - i % 8) := by
    rw [bitMask, BitVec.getLsbD_shiftLeft, BitVec.getLsbD_one, Bool.eq_iff_iff]
    simp only [Bool.and_eq_true, decide_eq_true_eq, Bool.not_eq_true', decide_eq_false_iff_not]
    omega
  have hf : (0xFF#8).getLsbD k = true := by
    rw [show (0xFF#8) = BitVec.allOnes 8 from rfl, BitVec.getLsbD_allOnes]
    simp [hk]
  unfold putBit
  cases v
  · simp only [Bool.false_eq_true, if_false, BitVec.getLsbD_and, BitVec.getLsbD_xor, hm, hf]
    by_cases e : k = 7 - i % 8 <;> simp [e]
  · simp only [if_true, BitVec.getLsbD_or, hm]
    by_cases e : k = 7 - i % 8 <;> simp [e]

/-- Read after write of a bit (R40, R82): the bit written there, and every other bit as before. -/
theorem Memory.getBit_setBit {m : Memory} (i j : Nat) (v : Bit) (hm : Memory.wf m = true) :
    Memory.getBit (Memory.setBit m i v) j = if j = i then v else Memory.getBit m j := by
  unfold Memory.getBit Memory.setBit bitOfByte
  rw [Memory.read_write _ _ _ hm]
  have hj : j % 8 < 8 := Nat.mod_lt _ (by omega)
  have hi : i % 8 < 8 := Nat.mod_lt _ (by omega)
  by_cases e : j / 8 = i / 8
  · rw [if_pos e, putBit_getLsbD _ _ _ _ (by omega), e]
    by_cases e' : j % 8 = i % 8
    · have : j = i := by omega
      simp [this]
    · have : j ≠ i := fun h => e' (by rw [h])
      have h2 : ¬ 7 - j % 8 = 7 - i % 8 := by omega
      simp [this, h2]
  · have : j ≠ i := fun h => e (by rw [h])
    simp [e, this]

theorem Memory.setBit_wf {m : Memory} (i : Nat) (v : Bit) (hm : Memory.wf m = true) :
    Memory.wf (Memory.setBit m i v) = true := Memory.write_wf _ _ hm

/-- A byte of the buffer, bit by bit. -/
theorem Memory.read_getLsbD (m : Memory) (a k : Nat) (hk : k < 8) :
    (Memory.read m a).getLsbD k = Memory.getBit m (8 * a + (7 - k)) := by
  unfold Memory.getBit bitOfByte
  have h1 : (8 * a + (7 - k)) / 8 = a := by omega
  have h2 : (8 * a + (7 - k)) % 8 = 7 - k := by omega
  rw [h1, h2]
  congr 1
  omega

/-- Bytes are equal when their buffer bits are. -/
theorem Memory.read_eq_of_bits {m m' : Memory} {a : Nat}
    (h : ∀ i, 8 * a ≤ i → i < 8 * a + 8 → Memory.getBit m i = Memory.getBit m' i) :
    Memory.read m a = Memory.read m' a := by
  apply BitVec.eq_of_getLsbD_eq
  intro k hk
  rw [Memory.read_getLsbD _ _ _ hk, Memory.read_getLsbD _ _ _ hk]
  exact h _ (by omega) (by omega)

/-- Writing a bit leaves every byte but its own. -/
theorem Memory.read_setBit_of_ne {m : Memory} (i a : Nat) (v : Bit) (hm : Memory.wf m = true)
    (h : a ≠ i / 8) : Memory.read (Memory.setBit m i v) a = Memory.read m a := by
  rw [Memory.setBit, Memory.read_write _ _ _ hm, if_neg h]

/-! ## Windows -/

theorem Memory.write16_wf {m : Memory} (a : Nat) (w : Word16) (hm : Memory.wf m = true) :
    Memory.wf (Memory.write16 m a w) = true := Memory.write_wf _ _ (Memory.write_wf _ _ hm)

/-- The bytes after a window is written (R32). -/
theorem Memory.read_write16 {m : Memory} (a b : Nat) (w : Word16) (hm : Memory.wf m = true) :
    Memory.read (Memory.write16 m a w) b =
      if b = a then hiByte w else if b = a + 1 then loByte w else Memory.read m b := by
  rw [Memory.write16, Memory.read_write _ _ _ (Memory.write_wf _ _ hm), Memory.read_write _ _ _ hm]
  by_cases e : b = a + 1
  · simp [e]
  · simp [e]

@[simp] theorem Memory.read16_write16 {m : Memory} (a : Nat) (w : Word16) (hm : Memory.wf m = true) :
    Memory.read16 (Memory.write16 m a w) a = w := by
  rw [Memory.read16, Memory.read_write16 _ _ _ hm, Memory.read_write16 _ _ _ hm]
  simp

/-- Bit `k` of the window at byte offset `a` is the buffer bit `8a + (15 - k)` (R32). -/
theorem Memory.read16_getLsbD (m : Memory) (a k : Nat) (hk : k < 16) :
    (Memory.read16 m a).getLsbD k = Memory.getBit m (8 * a + (15 - k)) := by
  rw [Memory.read16, wordOf, BitVec.getLsbD_append]
  by_cases h : k < 8
  · rw [if_pos h, Memory.read_getLsbD _ _ _ h]
    congr 1
    omega
  · rw [if_neg h, Memory.read_getLsbD _ _ _ (by omega)]
    congr 1
    omega

theorem Memory.shiftWindow_wf {m : Memory} (a n : Nat) (hm : Memory.wf m = true) :
    Memory.wf (Memory.shiftWindow m a n) = true := Memory.write16_wf _ _ hm

/-- The bits after a window is shifted (R83): inside the window every bit moves `n` indices down and
zeros enter at its end; outside nothing changes. -/
theorem Memory.getBit_shiftWindow {m : Memory} (a n i : Nat) (hm : Memory.wf m = true) :
    Memory.getBit (Memory.shiftWindow m a n) i =
      if 8 * a ≤ i ∧ i < 8 * a + 16 then
        decide (i + n < 8 * a + 16) && Memory.getBit m (i + n)
      else Memory.getBit m i := by
  have hw := Memory.shiftWindow_wf a n hm
  by_cases h : 8 * a ≤ i ∧ i < 8 * a + 16
  · rw [if_pos h]
    have e : i = 8 * a + (15 - (15 - (i - 8 * a))) := by omega
    conv_lhs => rw [e]
    rw [← Memory.read16_getLsbD _ _ _ (by omega), Memory.shiftWindow, Memory.read16_write16 _ _ hm,
      BitVec.getLsbD_shiftLeft]
    by_cases g : i + n < 8 * a + 16
    · have g1 : ¬ 15 - (i - 8 * a) < n := by omega
      have g2 : 15 - (i - 8 * a) < 16 := by omega
      simp only [g, g1, g2, decide_true, decide_false, Bool.true_and, Bool.not_false]
      rw [Memory.read16_getLsbD _ _ _ (by omega)]
      congr 1
      omega
    · have g1 : 15 - (i - 8 * a) < n := by omega
      simp [g, g1]
  · rw [if_neg h]
    unfold Memory.getBit Memory.shiftWindow
    rw [Memory.read_write16 _ _ _ hm]
    have h1 : i / 8 ≠ a := by omega
    have h2 : i / 8 ≠ a + 1 := by omega
    simp [h1, h2]

/-- The window after a shift is the 16-bit value shifted (R83). -/
theorem Memory.read16_shiftWindow {m : Memory} (a n : Nat) (hm : Memory.wf m = true) :
    Memory.read16 (Memory.shiftWindow m a n) a = Memory.read16 m a <<< n := by
  rw [Memory.shiftWindow, Memory.read16_write16 _ _ hm]

/-- Shifting a window leaves every byte outside it. -/
theorem Memory.read_shiftWindow_of_ne {m : Memory} (a n b : Nat) (hm : Memory.wf m = true)
    (h : b ≠ a) (h' : b ≠ a + 1) : Memory.read (Memory.shiftWindow m a n) b = Memory.read m b := by
  rw [Memory.shiftWindow, Memory.read_write16 _ _ _ hm, if_neg h, if_neg h']

/-! ## Sequences -/

@[simp] theorem Memory.bits_length (m : Memory) (blen : Nat) : (Memory.bits m blen).length = blen := by
  simp [Memory.bits]

theorem Memory.bits_getElem (m : Memory) (blen i : Nat) (h : i < (Memory.bits m blen).length) :
    (Memory.bits m blen)[i] = Memory.getBit m i := by
  simp [Memory.bits]

/-- A byte offset pair exists exactly when the window's last bit is below the byte count (R36). -/
theorem window_exists_iff (a blen : Nat) : a + 2 ≤ nbytes blen ↔ 8 * a + 8 < blen := by
  unfold nbytes
  omega

end Sys2Proof.Machine
end

