-- ==== Sys2Proof/Laws/Message.lean ====
section
/-! SUPPORT. Laws of the message read-out: `MAXREC` (R16) and `Materialise` (R107). -/

namespace Sys2Proof.Machine

theorem lastResolved_eq_none {l : List (Option Byte)} :
    lastResolved l = none ↔ ∀ i (h : i < l.length), l[i] = none := by
  induction l with
  | nil => simp [lastResolved]
  | cons x xs ih =>
    constructor
    · intro h i hi
      cases hx : lastResolved xs with
      | some k => simp [lastResolved, hx] at h
      | none =>
        have hn : x = none := by
          cases x with
          | none => rfl
          | some v => simp [lastResolved, hx] at h
        cases i with
        | zero => simpa using hn
        | succ i => simpa using ih.mp hx i (by simpa using hi)
    · intro h
      have h0 : x = none := h 0 (by simp)
      have hx := ih.mpr fun i hi => h (i + 1) (by simpa using hi)
      simp [lastResolved, hx, h0]

theorem lastResolved_eq_some {l : List (Option Byte)} {m : Nat} :
    lastResolved l = some m ↔
      ∃ h : m < l.length, l[m] ≠ none ∧ ∀ i (hi : i < l.length), m < i → l[i] = none := by
  induction l generalizing m with
  | nil => simp [lastResolved]
  | cons x xs ih =>
    cases hx : lastResolved xs with
    | some k =>
      obtain ⟨hk, hne, hmax⟩ := ih.mp hx
      constructor
      · intro h
        have e : k + 1 = m := by simpa [lastResolved, hx] using h
        subst e
        refine ⟨by simpa using hk, by simpa using hne, ?_⟩
        intro i hi hlt
        cases i with
        | zero => omega
        | succ i => simpa using hmax i (by simpa using hi) (by omega)
      · rintro ⟨hm, hne', hmax'⟩
        have e : m = k + 1 := by
          rcases Nat.lt_trichotomy m (k + 1) with l | l | l
          · exact absurd (hmax' (k + 1) (by simpa using hk) l) hne
          · exact l
          · cases m with
            | zero => omega
            | succ m => exact absurd (hmax m (by simpa using hm) (by omega)) (by simpa using hne')
        simp [lastResolved, hx, e]
    | none =>
      have hall := lastResolved_eq_none.mp hx
      cases x with
      | none =>
        simp only [lastResolved, hx]
        constructor
        · simp
        · rintro ⟨hm, hne, -⟩
          exfalso
          apply hne
          cases m with
          | zero => rfl
          | succ m => simpa using hall m (by simpa using hm)
      | some v =>
        simp only [lastResolved, hx]
        constructor
        · intro h
          have e : m = 0 := by simpa using h.symm
          subst e
          refine ⟨by simp, by simp, ?_⟩
          intro i hi hlt
          cases i with
          | zero => omega
          | succ i => simpa using hall i (by simpa using hi)
        · rintro ⟨hm, hne, -⟩
          cases m with
          | zero => simp
          | succ m => exact absurd (hall m (by simpa using hm)) (by simpa using hne)

/-- `OUT` as a list holds `OUT[p]` at index `p`. -/
theorem Context.toList_getElem (c : Context) (i : Nat) (h : i < c.out.toList.length) :
    c.out.toList[i] = c.outAt (BitVec.ofNat 7 i) := by
  have hi : i < 128 := by simpa using h
  have e : (posIdx (BitVec.ofNat 7 i)).val = i := by rw [posIdx_val, ofNat_toNat_pos hi]
  simp only [Context.outAt, Vector.getElem_toList, Fin.getElem_fin, e]

theorem Context.outAt_eq (c : Context) (p : Pos) :
    c.outAt p = c.out.toList[p.toNat]'(by have := p.isLt; simpa using this) := by
  rw [Context.toList_getElem]
  congr 1
  exact (BitVec.eq_of_toNat_eq (by rw [ofNat_toNat_pos p.isLt])).symm

/-- `MAXREC` is absent exactly when nothing is recorded (R16). -/
theorem Context.maxRec_eq_none (c : Context) : c.maxRec = none ↔ ∀ p, c.outAt p = none := by
  rw [Context.maxRec, Option.map_eq_none_iff, lastResolved_eq_none]
  constructor
  · intro h p
    rw [Context.outAt_eq]
    exact h _ _
  · intro h i hi
    rw [Context.toList_getElem]
    exact h _

/-- `MAXREC` is the largest recorded position (R16). -/
theorem Context.maxRec_eq_some (c : Context) (p : Pos) :
    c.maxRec = some p ↔ c.outAt p ≠ none ∧ ∀ q : Pos, p.toNat < q.toNat → c.outAt q = none := by
  rw [Context.maxRec, Option.map_eq_some_iff]
  constructor
  · rintro ⟨m, hm, rfl⟩
    obtain ⟨h, hne, hmax⟩ := lastResolved_eq_some.mp hm
    have hlt : m < 128 := by simpa using h
    refine ⟨by rw [← Context.toList_getElem c m h]; exact hne, ?_⟩
    intro q hq
    rw [ofNat_toNat_pos hlt] at hq
    rw [Context.outAt_eq]
    exact hmax _ _ hq
  · rintro ⟨hne, hmax⟩
    refine ⟨p.toNat, lastResolved_eq_some.mpr ⟨by simpa using p.isLt, ?_, ?_⟩, ?_⟩
    · rw [← Context.outAt_eq]; exact hne
    · intro i hi hlt
      rw [Context.toList_getElem]
      have hi' : i < 128 := by simpa using hi
      exact hmax _ (by rw [ofNat_toNat_pos hi']; exact hlt)
    · simp

/-- The length of the materialised message: `MAXREC + 1`, or 0 (R107). -/
theorem materialise_length (P : Params) (c : Context) :
    (materialise P c.out).length = c.maxRec.elim 0 fun p => p.toNat + 1 := by
  unfold materialise Context.maxRec
  cases h : lastResolved c.out.toList with
  | none => rfl
  | some m =>
    obtain ⟨hm, -⟩ := lastResolved_eq_some.mp h
    have hlt : m < 128 := by simpa using hm
    simp only [List.length_map, List.length_take, Vector.length_toList, Option.map_some,
      Option.elim_some, ofNat_toNat_pos hlt]
    omega

/-- A symbol of the materialised message: `OUT[p]`, or `REPL` where it is unresolved (R107). -/
theorem materialise_getElem (P : Params) (c : Context) (i : Nat)
    (h : i < (materialise P c.out).length) :
    (materialise P c.out)[i] = (c.outAt (BitVec.ofNat 7 i)).or P.repl := by
  cases hl : lastResolved c.out.toList with
  | none =>
    have e : materialise P c.out = [] := by unfold materialise; rw [hl]
    rw [e] at h
    simp at h
  | some m =>
    have e : materialise P c.out = (c.out.toList.take (m + 1)).map fun o => o.or P.repl := by
      unfold materialise; rw [hl]
    simp only [e, List.getElem_map, List.getElem_take]
    rw [Context.toList_getElem]

theorem materialise_eq_nil (P : Params) (c : Context) :
    materialise P c.out = [] ↔ ∀ p, c.outAt p = none := by
  rw [← Context.maxRec_eq_none, ← List.length_eq_zero_iff, materialise_length]
  cases c.maxRec <;> simp

@[simp] theorem materialise_fresh (P : Params) : materialise P Context.fresh.out = [] := by
  rw [materialise_eq_nil]
  simp

/-- Two contexts with the same recorded bytes materialise to the same message. -/
theorem Context.out_ext {c d : Context} (h : ∀ p, c.outAt p = d.outAt p) : c.out = d.out := by
  apply Vector.ext
  intro i hi
  have := h (BitVec.ofNat 7 i)
  rw [Context.outAt_eq, Context.outAt_eq] at this
  simpa [ofNat_toNat_pos hi, Nat.mod_eq_of_lt hi] using this

/-- The message of a context that holds exactly a run of bytes from position 0 on (R107). -/
theorem materialise_eq_of_outAt (P : Params) (c : Context) (l : List (Option Byte))
    (hlen : l.length ≤ 128) (hlast : ∀ h : l ≠ [], l.getLast h ≠ none)
    (hin : ∀ i (h : i < l.length), c.outAt (BitVec.ofNat 7 i) = l[i])
    (hout : ∀ p : Pos, l.length ≤ p.toNat → c.outAt p = none) :
    materialise P c.out = l.map fun o => o.or P.repl := by
  have hlen' : (materialise P c.out).length = l.length := by
    rw [materialise_length]
    by_cases e : l = []
    · subst e
      have : c.maxRec = none := (Context.maxRec_eq_none c).mpr fun p => hout p (by simp)
      simp [this]
    · have hpos : 0 < l.length := List.length_pos_iff.mpr e
      have hl := hlast e
      rw [List.getLast_eq_getElem] at hl
      have : c.maxRec = some (BitVec.ofNat 7 (l.length - 1)) := by
        rw [Context.maxRec_eq_some, ofNat_toNat_pos (by omega)]
        refine ⟨by rw [hin _ (by omega)]; exact hl, fun q hq => hout q (by omega)⟩
      rw [this]
      simp only [Option.elim_some, ofNat_toNat_pos (show l.length - 1 < 128 by omega)]
      omega
  apply List.ext_getElem
  · simpa using hlen'
  · intro i h1 h2
    rw [materialise_getElem]
    simp only [List.getElem_map]
    rw [hin i (by simpa using h2)]

end Sys2Proof.Machine
end

