-- ==== Sys2Proof/Laws/Interpret.lean ====
section
/-! SUPPORT. Laws of the interpretation step: its exits, said once (R95), and what each leaves. -/

namespace Sys2Proof.Machine

/-- An invalid word that is not trusted is discarded (R98). -/
theorem interpret_discard {P : Params} {ctx : Context} {p c : Byte} {len : Nat}
    (hv : verify p c = false) (ht : trusted ctx p = false) :
    interpret P ctx p c len = (ctx, [.diagnostic .checksumMismatch p c]) := by
  simp [interpret, hv, ht, diag]

/-- An accepted position word within the bound (R99). -/
theorem interpret_position {P : Params} {ctx : Context} {p c : Byte} {len : Nat}
    (ha : verify p c = true ∨ trusted ctx p = true) (hp : isPos p = true)
    (hb : 4 * (posOf p).toNat ≤ len) :
    interpret P ctx p c len =
      ({ ctx with cur := some (posOf p), base := some (posOf p) },
        [.fieldResolved .position (posByte (posOf p)) p c]) := by
  have hb' : ¬ Config.sanityDiv * (posOf p).toNat > len := Nat.not_lt.mpr hb
  have ha' : (verify p c || trusted ctx p) = true := by simpa using ha
  simp [interpret, ha', hp, acceptPosition, hb']

/-- An accepted position word beyond the bound (R100). -/
theorem interpret_overflow {P : Params} {ctx : Context} {p c : Byte} {len : Nat}
    (ha : verify p c = true ∨ trusted ctx p = true) (hp : isPos p = true)
    (hb : len < 4 * (posOf p).toNat) :
    interpret P ctx p c len =
      ({ ctx with cur := none, base := none }, [.diagnostic .positionOverflow p c]) := by
  have hb' : Config.sanityDiv * (posOf p).toNat > len := hb
  have ha' : (verify p c || trusted ctx p) = true := by simpa using ha
  simp [interpret, ha', hp, acceptPosition, hb', diag]

/-- A valid value word with a pending position (R101). -/
theorem interpret_recorded {P : Params} {ctx : Context} {p c : Byte} {len : Nat} {q : Pos}
    (hv : verify p c = true) (hp : isPos p = false) (hc : ctx.cur = some q) :
    interpret P ctx p c len =
      ({ ctx.record q p with cur := none, base := if P.keepBase then ctx.base else none },
        [.fieldResolved .character p p c]) := by
  simp [interpret, hv, hp, acceptValue, hc]

/-- A valid value word with no pending position (R102). -/
theorem interpret_unsolicited {P : Params} {ctx : Context} {p c : Byte} {len : Nat}
    (hv : verify p c = true) (hp : isPos p = false) (hc : ctx.cur = none) :
    interpret P ctx p c len = (ctx, [.diagnostic .unsolicitedValue p c]) := by
  simp [interpret, hv, hp, acceptValue, hc, diag]

/-- A value word is never trusted (R97). -/
theorem trusted_of_value {ctx : Context} {p : Byte} (hp : isPos p = false) : trusted ctx p = false := by
  unfold trusted
  cases ctx.base <;> simp [hp]

/-- The trust test (R97): a position word, a base, and the sequential position. -/
theorem trusted_iff {ctx : Context} {p : Byte} :
    trusted ctx p = true ↔
      isPos p = true ∧ ∃ b, ctx.base = some b ∧ (posOf p).toNat = b.toNat + 1 := by
  unfold trusted
  cases ctx.base <;> simp

/-- Every word in every context takes exactly one of five exits (R95); a trusted word takes the second
or the third. Later proofs split on this and never unfold the step. -/
theorem interpret_cases (P : Params) (ctx : Context) (p c : Byte) (len : Nat) :
    (verify p c = false ∧ trusted ctx p = false ∧
      interpret P ctx p c len = (ctx, [.diagnostic .checksumMismatch p c])) ∨
    ((verify p c = true ∨ trusted ctx p = true) ∧ isPos p = true ∧ 4 * (posOf p).toNat ≤ len ∧
      interpret P ctx p c len =
        ({ ctx with cur := some (posOf p), base := some (posOf p) },
          [.fieldResolved .position (posByte (posOf p)) p c])) ∨
    ((verify p c = true ∨ trusted ctx p = true) ∧ isPos p = true ∧ len < 4 * (posOf p).toNat ∧
      interpret P ctx p c len =
        ({ ctx with cur := none, base := none }, [.diagnostic .positionOverflow p c])) ∨
    (verify p c = true ∧ isPos p = false ∧ ∃ q, ctx.cur = some q ∧
      interpret P ctx p c len =
        ({ ctx.record q p with cur := none, base := if P.keepBase then ctx.base else none },
          [.fieldResolved .character p p c])) ∨
    (verify p c = true ∧ isPos p = false ∧ ctx.cur = none ∧
      interpret P ctx p c len = (ctx, [.diagnostic .unsolicitedValue p c])) := by
  by_cases ha : verify p c = true ∨ trusted ctx p = true
  · cases hp : isPos p with
    | true =>
      by_cases hb : 4 * (posOf p).toNat ≤ len
      · exact .inr (.inl ⟨ha, rfl, hb, interpret_position ha hp hb⟩)
      · exact .inr (.inr (.inl ⟨ha, rfl, by omega, interpret_overflow ha hp (by omega)⟩))
    | false =>
      have hv : verify p c = true := by
        rcases ha with h | h
        · exact h
        · rw [trusted_of_value hp] at h
          cases h
      cases hc : ctx.cur with
      | some q => exact .inr (.inr (.inr (.inl ⟨hv, rfl, q, rfl, interpret_recorded hv hp hc⟩)))
      | none => exact .inr (.inr (.inr (.inr ⟨hv, rfl, rfl, interpret_unsolicited hv hp hc⟩)))
  · have hv : verify p c = false := by
      cases h : verify p c
      · rfl
      · exact absurd (.inl h) ha
    have ht : trusted ctx p = false := by
      cases h : trusted ctx p
      · rfl
      · exact absurd (.inr h) ha
    exact .inl ⟨hv, ht, interpret_discard hv ht⟩

/-! ## Pairs -/

@[simp] theorem interpretPairs_nil (P : Params) (len : Nat) (ctx : Context) :
    interpretPairs P len ctx [] = (ctx, []) := rfl

@[simp] theorem interpretPairs_single (P : Params) (len : Nat) (ctx : Context) (b : Byte) :
    interpretPairs P len ctx [b] = (ctx, []) := rfl

theorem interpretPairs_cons (P : Params) (len : Nat) (ctx : Context) (p c : Byte) (rest : List Byte) :
    interpretPairs P len ctx (p :: c :: rest) =
      ((interpretPairs P len (interpret P ctx p c len).1 rest).1,
        (interpret P ctx p c len).2 ++
          (interpretPairs P len (interpret P ctx p c len).1 rest).2) := rfl

/-- Pairs after pairs: the second part starts from the context that the first leaves. -/
theorem interpretPairs_append (P : Params) (len : Nat) (ctx : Context) (as bs : List Byte)
    (h : as.length % 2 = 0) :
    interpretPairs P len ctx (as ++ bs) =
      ((interpretPairs P len (interpretPairs P len ctx as).1 bs).1,
        (interpretPairs P len ctx as).2 ++
          (interpretPairs P len (interpretPairs P len ctx as).1 bs).2) := by
  match as with
  | [] => simp
  | [a] => simp at h
  | p :: c :: rest =>
    have hr : rest.length % 2 = 0 := by
      simp only [List.length_cons] at h
      omega
    simp only [List.cons_append, interpretPairs_cons]
    rw [interpretPairs_append P len _ rest bs hr]
    simp

end Sys2Proof.Machine
end

