-- ==== Sys2Proof/Laws/PerInstr.lean ====
section
/-! SUPPORT. The family EncodingOfRow: the encoding of every well-formed instruction is of the row of the
opcode table that its mnemonic names (R51, R52, R63). -/

namespace Sys2Proof.Laws

/-- A code is of the row a mnemonic names: the mask and match of R63, or payload bit 7 for a wire word. -/
def codeOfRow (mnemonic : String) : Code → Prop
  | .port (.cmd w :: _) => ∃ r ∈ cmdRows, r.mnemonic = mnemonic ∧ r.matches w = true
  | .port _ => False
  | .wire w => mnemonic = if w.getLsbD 15 then "POSW" else "VALW"

/-- The statement, about the instruction as syntax. -/
def EncodingOfRow.Statement (i : Instr) : Prop := i.wf = true → codeOfRow i.mnemonic (encode i)

/-- A row of R63 matches a word when the word under the row's mask is the row's pattern. -/
theorem codeOfRow_oneWord {mnemonic : String} {w : Word32} (mask pattern : Word32)
    (hrow : ⟨mnemonic, mask, pattern⟩ ∈ cmdRows) (h : w &&& mask = pattern) (bs : List PortBeat) :
    codeOfRow mnemonic (.port (.cmd w :: bs)) :=
  ⟨_, hrow, rfl, by simpa [CmdRow.matches] using h⟩

/-- A field of `n` bits at the low end of a word vanishes under a mask that is clear there. -/
theorem masked_field {n m : Nat} (hi : BitVec m) (field : BitVec n) :
    (hi ++ field) &&& (BitVec.allOnes m ++ 0#n) = hi ++ 0#n := by
  rw [BitVec.and_append]
  simp

theorem EncodingOfRow.clear : Statement .clear :=
  fun _ => codeOfRow_oneWord (mnemonic := "CLEAR") 0xFFFFFFFF 0x00000000 (by decide) (by decide) []

theorem EncodingOfRow.feed (bit : Bit) : Statement (.feed bit) :=
  fun _ => codeOfRow_oneWord (mnemonic := "FEED") 0xFFFFFFFE 0x10000000 (by decide)
    (masked_field (m := 31) (n := 1) (0x1#4 ++ 0#27) (BitVec.ofBool bit)) _

theorem EncodingOfRow.status : Statement .status :=
  fun _ => codeOfRow_oneWord (mnemonic := "STATUS") 0xFFFFFFFF 0x20000000 (by decide) (by decide) []

theorem EncodingOfRow.readmsg : Statement .readmsg :=
  fun _ => codeOfRow_oneWord (mnemonic := "READMSG") 0xFFFFFFFF 0x30000000 (by decide) (by decide) []

theorem EncodingOfRow.rev (b : Byte) : Statement (.rev b) :=
  fun _ => codeOfRow_oneWord (mnemonic := "REV") 0xFFFFFF00 0x40000000 (by decide)
    (masked_field (m := 24) (n := 8) (0x4#4 ++ 0#20) (b)) _

theorem EncodingOfRow.csum (b : Byte) : Statement (.csum b) :=
  fun _ => codeOfRow_oneWord (mnemonic := "CSUM") 0xFFFFFF00 0x50000000 (by decide)
    (masked_field (m := 24) (n := 8) (0x5#4 ++ 0#20) (b)) _

theorem EncodingOfRow.verify (p c : Byte) : Statement (.verify p c) :=
  fun _ => codeOfRow_oneWord (mnemonic := "VERIFY") 0xFFFF0000 0x60000000 (by decide) (by
    rw [BitVec.append_assoc]
    exact masked_field (m := 16) (n := 16) (0x6#4 ++ 0#12) (p ++ c)) _

theorem EncodingOfRow.classify (p : Byte) : Statement (.classify p) :=
  fun _ => codeOfRow_oneWord (mnemonic := "CLASSIFY") 0xFFFFFF00 0x70000000 (by decide)
    (masked_field (m := 24) (n := 8) (0x7#4 ++ 0#20) (p)) _

/-- An index below `2^27` in 28 bits is a zero bit above its 27. -/
theorem ofNat_index {i : Nat} (h : i < 2 ^ 27) : BitVec.ofNat 28 i = 0#1 ++ BitVec.ofNat 27 i := by
  apply BitVec.eq_of_toNat_eq
  rw [BitVec.toNat_append, BitVec.toNat_ofNat, BitVec.toNat_ofNat (w := 27), Nat.mod_eq_of_lt h,
    Nat.mod_eq_of_lt (Nat.lt_trans h (by decide))]
  simp

theorem EncodingOfRow.getbit (i : Nat) : Statement (.getbit i) := fun h =>
  codeOfRow_oneWord (mnemonic := "GETBIT") 0xF8000000 0x80000000 (by decide) (by
    have e : (0x8#4 ++ 0#1 ++ BitVec.ofNat 27 i : Word32) = 0x8#4 ++ (0#1 ++ BitVec.ofNat 27 i) :=
      BitVec.append_assoc
    rw [ofNat_index (of_decide_eq_true h), ← e]
    exact masked_field (m := 5) (n := 27) (0x8#4 ++ 0#1) (BitVec.ofNat 27 i)) _

theorem EncodingOfRow.setbit (i : Nat) (v : Bit) : Statement (.setbit i v) :=
  fun _ => codeOfRow_oneWord (mnemonic := "SETBIT") 0xF0000000 0x90000000 (by decide) (by
    rw [BitVec.append_assoc]
    exact masked_field (m := 4) (n := 28) 0x9#4 (BitVec.ofBool v ++ BitVec.ofNat 27 i)) _

theorem EncodingOfRow.shiftwin (a : Nat) (n : BitVec 5) : Statement (.shiftwin a n) :=
  fun _ => codeOfRow_oneWord (mnemonic := "SHIFTWIN") 0xF0000000 0xA0000000 (by decide) (by
    rw [BitVec.append_assoc]
    exact masked_field (m := 4) (n := 28) 0xA#4 (BitVec.ofNat 23 a ++ n)) _

theorem EncodingOfRow.readbits : Statement .readbits :=
  fun _ => codeOfRow_oneWord (mnemonic := "READBITS") 0xFFFFFFFF 0xB0000000 (by decide) (by decide) []

theorem EncodingOfRow.encode (msg : List Byte) : Statement (.encode msg) :=
  fun _ => codeOfRow_oneWord (mnemonic := "ENCODE") 0xFFFFFE00 0xC0000000 (by decide)
    (masked_field (m := 23) (n := 9) (0xC#4 ++ 0#19) (BitVec.ofNat 9 msg.length)) _

theorem EncodingOfRow.decode (input : List Byte) : Statement (.decode input) :=
  fun _ => codeOfRow_oneWord (mnemonic := "DECODE") 0xF0000000 0xD0000000 (by decide)
    (masked_field (m := 4) (n := 28) (0xD#4) (BitVec.ofNat 28 input.length)) _

theorem EncodingOfRow.posw (p : Pos) (c : Byte) : Statement (.posw p c) := fun _ => by
  have h : (1#1 ++ p ++ c : Word16).getLsbD 15 = true := by
    rw [BitVec.getLsbD_append, BitVec.getLsbD_append]
    rfl
  show "POSW" = if (1#1 ++ p ++ c : Word16).getLsbD 15 then "POSW" else "VALW"
  rw [h]
  rfl

theorem EncodingOfRow.valw (v : Pos) (c : Byte) : Statement (.valw v c) := fun _ => by
  have h : (0#1 ++ v ++ c : Word16).getLsbD 15 = false := by
    rw [BitVec.getLsbD_append, BitVec.getLsbD_append]
    rfl
  show "VALW" = if (0#1 ++ v ++ c : Word16).getLsbD 15 then "POSW" else "VALW"
  rw [h]
  rfl

end Sys2Proof.Laws
end

