-- ==== Sys2Proof/Laws/Stream.lean ====
section
/-! SUPPORT. Laws of `FEED`: its three ends, each said once (R115 to R119). -/

namespace Sys2Proof.Machine

/-- With the parameters taken, no capacity and no width stops a `FEED` (R120). -/
theorem feedBit_params (s : State) (bit : Bit) :
    execFeed bit s =
      if (s.bitIndex + 1) % 16 = 0 then (s.storeBit bit).checkWindow Config.params bit
      else (s.storeBit bit).done .empty [.bitObserved bit] := rfl

/-- The gate (R116): away from a multiple of 16 the bit is only stored. -/
theorem execFeed_stored {bit : Bit} {s : State} (h : (s.bitIndex + 1) % 16 ≠ 0) :
    execFeed bit s = (s.storeBit bit).done .empty [.bitObserved bit] := by
  rw [feedBit_params, if_neg h]

/-- A failed check (R118). -/
theorem execFeed_failed {bit : Bit} {s : State} {p c : Byte} (h : (s.bitIndex + 1) % 16 = 0)
    (hp : Memory.read (s.storeBit bit).buf (windowOffset (s.bitIndex + 1)) = p)
    (hc : Memory.read (s.storeBit bit).buf (windowOffset (s.bitIndex + 1) + 1) = c)
    (hv : verify p c = false) :
    execFeed bit s =
      (s.storeBit bit).slide.done .empty [.bitObserved bit, .diagnostic .checksumMismatch p c] := by
  rw [feedBit_params, if_pos h]
  simp only [State.checkWindow, State.storeBit_bitIndex, hp, hc, hv]
  rfl

/-- An accepted word (R119). -/
theorem execFeed_accepted {bit : Bit} {s : State} {p c : Byte} (h : (s.bitIndex + 1) % 16 = 0)
    (hp : Memory.read (s.storeBit bit).buf (windowOffset (s.bitIndex + 1)) = p)
    (hc : Memory.read (s.storeBit bit).buf (windowOffset (s.bitIndex + 1) + 1) = c)
    (hv : verify p c = true) :
    execFeed bit s =
      ((s.storeBit bit).interpretWord Config.params p c).1.acceptWord.done .empty
        (.bitObserved bit :: ((s.storeBit bit).interpretWord Config.params p c).2 ++
          [.messageUpdated (materialise Config.params
            ((s.storeBit bit).interpretWord Config.params p c).1.ctx.out)]) := by
  rw [feedBit_params, if_pos h]
  simp only [State.checkWindow, State.storeBit_bitIndex, hp, hc, hv]
  rfl

/-- The three ends of a `FEED`, of which exactly one applies (R115). -/
theorem execFeed_cases (bit : Bit) (s : State) :
    ((s.bitIndex + 1) % 16 ≠ 0 ∧
      execFeed bit s = (s.storeBit bit).done .empty [.bitObserved bit]) ∨
    (∃ p c, (s.bitIndex + 1) % 16 = 0 ∧
      Memory.read (s.storeBit bit).buf (windowOffset (s.bitIndex + 1)) = p ∧
      Memory.read (s.storeBit bit).buf (windowOffset (s.bitIndex + 1) + 1) = c ∧
      verify p c = false ∧
      execFeed bit s =
        (s.storeBit bit).slide.done .empty [.bitObserved bit, .diagnostic .checksumMismatch p c]) ∨
    (∃ p c, (s.bitIndex + 1) % 16 = 0 ∧
      Memory.read (s.storeBit bit).buf (windowOffset (s.bitIndex + 1)) = p ∧
      Memory.read (s.storeBit bit).buf (windowOffset (s.bitIndex + 1) + 1) = c ∧
      verify p c = true ∧
      execFeed bit s =
        ((s.storeBit bit).interpretWord Config.params p c).1.acceptWord.done .empty
          (.bitObserved bit :: ((s.storeBit bit).interpretWord Config.params p c).2 ++
            [.messageUpdated (materialise Config.params
              ((s.storeBit bit).interpretWord Config.params p c).1.ctx.out)])) := by
  by_cases h : (s.bitIndex + 1) % 16 = 0
  · right
    cases hv : verify (Memory.read (s.storeBit bit).buf (windowOffset (s.bitIndex + 1)))
        (Memory.read (s.storeBit bit).buf (windowOffset (s.bitIndex + 1) + 1)) with
    | false => exact .inl ⟨_, _, h, rfl, rfl, hv, execFeed_failed h rfl rfl hv⟩
    | true => exact .inr ⟨_, _, h, rfl, rfl, hv, execFeed_accepted h rfl rfl hv⟩
  · exact .inl ⟨h, execFeed_stored h⟩

/-- The window offset of a check: `2 * (bitIndex div 16)` of the state before the bit (R117). -/
theorem windowOffset_eq {n : Nat} (h : (n + 1) % 16 = 0) : windowOffset (n + 1) = 2 * (n / 16) := by
  unfold windowOffset
  omega

end Sys2Proof.Machine
end

