-- ==== Sys2Proof/Laws/Port.lean ====
section
/-! SUPPORT. Laws of the command port: data beats, the words of single commands, and runs of presented
beats. -/

namespace Sys2Proof

/-- The data beats of a list of bytes are taken whole, and what follows them stays. -/
theorem takeBeats_map (bs : List Byte) (rest : List PortBeat) :
    takeBeats bs.length (bs.map .data ++ rest) = some (bs, rest) := by
  induction bs with
  | nil => rfl
  | cons b bs ih => simp [takeBeats, ih]

/-- What is taken is that many data beats from the front. -/
theorem takeBeats_eq_some {n : Nat} {beats : List PortBeat} {bs : List Byte} {rest : List PortBeat}
    (h : takeBeats n beats = some (bs, rest)) : bs.length = n ∧ beats = bs.map .data ++ rest := by
  induction n generalizing beats bs rest with
  | zero =>
    simp only [takeBeats, Option.some.injEq, Prod.mk.injEq] at h
    obtain ⟨rfl, rfl⟩ := h
    simp
  | succ n ih =>
    match beats with
    | [] => simp [takeBeats] at h
    | .cmd w :: tl => simp [takeBeats] at h
    | .data b :: tl =>
      simp only [takeBeats, Option.map_eq_some_iff] at h
      obtain ⟨⟨bs', rest'⟩, h1, h2⟩ := h
      simp only [Prod.mk.injEq] at h2
      obtain ⟨rfl, rfl⟩ := h2
      obtain ⟨e1, e2⟩ := ih h1
      simp [e1, e2]

/-- A command word without data beats is the instruction it decodes to, and what follows it stays. -/
theorem decodePortFor_whole {P : Params} {w : Word32} {i : Instr} (h : decodeCmdFor P w = some (.whole i))
    (rest : List PortBeat) : decodePortFor P (.cmd w :: rest) = .instr i rest := by
  simp [decodePortFor, h]

/-- The two `FEED` words (R66) decode to `FEED`. -/
theorem decodePort_feed (b : Bit) (rest : List PortBeat) :
    decodePort ((encode (.feed b)).beats ++ rest) = .instr (.feed b) rest := by
  cases b <;> rfl

end Sys2Proof

namespace Sys2Proof.Machine

open Sys2Proof

/-- A step at which a whole instruction is presented runs it. -/
theorem step_of_fetched {s : State} {i : Instr} {rest : List PortBeat}
    (h : decodePort s.port = .instr i rest) : step s = exec i (s.taking rest) := by
  simp [step, State.fetched, h]

/-- All that a step which answers a next state can have done: nothing but dropping the outputs before it,
with no whole command presented, or one whole instruction. -/
theorem step_eq_next {s t : State} :
    step s = .next t ↔
      ((decodePort s.port = .idle ∨ decodePort s.port = .waiting) ∧ t = s.dropOutputs) ∨
      ∃ i rest, decodePort s.port = .instr i rest ∧ exec i (s.taking rest) = .next t := by
  unfold step State.fetched
  cases h : decodePort s.port <;> simp [eq_comm]

@[simp] theorem run_zero (s : State) : run 0 s = .next s := rfl

/-- The host's run over any machine, at a step that answers a next state. -/
theorem host_run_of_next (M : Host.Core) (n : Nat) (s t : M.State) (h : M.step s = .next t) :
    M.run (n + 1) s = M.run n t := by rw [Host.Core.run, h]

/-- The host's run over any machine, at a refused step. -/
theorem host_run_of_refused (M : Host.Core) (n : Nat) (s : M.State) (r : M.Refusal)
    (h : M.step s = .refused r) : M.run (n + 1) s = .refused r := by rw [Host.Core.run, h]

/-- A run is a step and the rest of the run. -/
theorem run_succ (n : Nat) (s : State) :
    run (n + 1) s =
      match step s with
      | .next t => run n t
      | .fault r => .fault r
      | .refused r => .refused r := by
  cases h : step s with
  | next t => exact host_run_of_next core n s t h
  | fault r => cases r
  | refused r => exact host_run_of_refused core n s r h

/-- One step of a run that answers a next state. -/
theorem run_succ_of_next {s t : State} (n : Nat) (h : step s = .next t) :
    run (n + 1) s = run n t := by
  rw [run_succ, h]

/-- A run that answers a next state answered one at its first step. -/
theorem run_succ_eq_next {s t : State} {n : Nat} (h : run (n + 1) s = .next t) :
    ∃ u, step s = .next u ∧ run n u = .next t := by
  rw [run_succ] at h
  cases hs : step s with
  | next u => rw [hs] at h; exact ⟨u, rfl, h⟩
  | fault f => cases f
  | refused r => rw [hs] at h; cases h

/-- Runs add up while they answer next states. -/
theorem run_add {s t : State} (n m : Nat) (h : run n s = .next t) : run (n + m) s = run m t := by
  induction n generalizing s with
  | zero =>
    rw [run_zero] at h
    injection h with h
    subst h
    simp
  | succ n ih =>
    obtain ⟨u, hs, h⟩ := run_succ_eq_next h
    rw [show n + 1 + m = n + m + 1 by omega, run_succ_of_next _ hs]
    exact ih h

/-- Every step of a run from a state that has an invariant keeps it: the induction, once. -/
theorem run_keeps {Inv : State → Prop} (hstep : ∀ s t, Inv s → step s = .next t → Inv t) {n : Nat}
    {s t : State} (h : Inv s) (hr : run n s = .next t) : Inv t := by
  induction n generalizing s with
  | zero =>
    rw [run_zero] at hr
    injection hr with hr
    exact hr ▸ h
  | succ n ih =>
    obtain ⟨u, hs, hr⟩ := run_succ_eq_next hr
    exact ih (hstep s u h hs) hr

/-- One presented `FEED` of a run (R66). -/
theorem run_feed {s t : State} {b : Bit} {rest : List PortBeat} (n : Nat)
    (hport : s.port = (encode (.feed b)).beats ++ rest)
    (h : execFeed b (s.taking rest) = .next t) : run (n + 1) s = run n t := by
  apply run_succ_of_next
  rw [step_of_fetched (by rw [hport]; exact decodePort_feed b rest)]
  exact h

end Sys2Proof.Machine
end

