-- ==== Sys2Proof/Tests/Slice0.lean ====
section
/-! SUPPORT. Tests. The expected results are the spec's: words from 30_encoding.md, results from the vectors
V-… and P… of 95_test_vectors.md and the examples of the rules. The last part holds a witness for every
statement that has hypotheses. -/

namespace Sys2Proof.Tests

open Sys2Proof Sys2Proof.Machine

/-- The state a step answers, and `State.reset` when it answers none. -/
def after : Host.Outcome State Fault Refusal → State
  | .next t => t
  | .fault _ => State.reset
  | .refused _ => State.reset

/-- Why a step was refused. -/
def refusal : Host.Outcome State Fault Refusal → Option Refusal
  | .next _ => none
  | .fault _ => none
  | .refused r => some r

/-- A fresh session with the given buffer and cursor. -/
def session (buf : Memory) (blen bitIndex : Nat) : State :=
  { State.reset with buf := buf, blen := blen, bitIndex := bitIndex }

/-- A fresh session with the given pending position and continuation base, and `bitIndex = 8 * len`. -/
def pending (cur base : Option Pos) (len : Nat) : State :=
  { State.reset with ctx := { Context.fresh with cur := cur, base := base }, bitIndex := 8 * len }

/-- The window `80 FE` but for its last bit, as fifteen `FEED` commands leave it. -/
def filling : State := session [(0, 0x80), (1, 0xFE)] 15 15

/-- The window `40 7F` of V-S2 but for its last bit. -/
def slipping : State := session [(0, 0x40), (1, 0x7E)] 15 15

/-! ## Well-formedness: each check refuses an ill-formed term -/

theorem test_wf_encode_refuses_512 : (Instr.encode (List.replicate 512 0)).wf = false := by
  simp only [Instr.wf, Instr.wfFor, encodeLenOk, List.length_replicate]
  decide

theorem test_wf_encode_takes_511 : (Instr.encode (List.replicate 511 0)).wf = true := by
  simp only [Instr.wf, Instr.wfFor, encodeLenOk, List.length_replicate]
  decide

theorem test_wf_decode_refuses_long (b : Byte) :
    (Instr.decode (List.replicate (2 ^ 28) b)).wf = false := by
  simp only [Instr.wf, Instr.wfFor, decodeLenOk, List.length_replicate]
  decide

theorem test_wf_decode_takes_longest (b : Byte) :
    (Instr.decode (List.replicate (2 ^ 28 - 1) b)).wf = true := by
  simp only [Instr.wf, Instr.wfFor, decodeLenOk, List.length_replicate]
  decide

theorem test_wf_getbit_refuses_wide :
    (Instr.getbit (2 ^ 27)).wf = false ∧ (Instr.getbit (2 ^ 27 - 1)).wf = true := by decide

theorem test_wf_setbit_refuses_wide :
    (Instr.setbit (2 ^ 27) true).wf = false ∧ (Instr.setbit (2 ^ 27 - 1) true).wf = true := by decide

theorem test_wf_shiftwin_refuses_wide :
    (Instr.shiftwin (2 ^ 23) 1).wf = false ∧ (Instr.shiftwin (2 ^ 23 - 1) 1).wf = true := by decide

/-! ## Decoding: a word written out from the layouts of R51, R52, R63 for every constructor -/

theorem test_decode_clear :
    decodePort [.cmd 0b00000000000000000000000000000000] = .instr .clear [] := by decide

theorem test_decode_feed :
    decodePort [.cmd 0b00010000000000000000000000000001] = .instr (.feed true) [] := by decide

theorem test_decode_status :
    decodePort [.cmd 0b00100000000000000000000000000000] = .instr .status [] := by decide

theorem test_decode_readmsg :
    decodePort [.cmd 0b00110000000000000000000000000000] = .instr .readmsg [] := by decide

theorem test_decode_rev :
    decodePort [.cmd 0b01000000000000000000000001101000] = .instr (.rev 0x68) [] := by decide

theorem test_decode_csum :
    decodePort [.cmd 0b01010000000000000000000010000000] = .instr (.csum 0x80) [] := by decide

theorem test_decode_verify :
    decodePort [.cmd 0b01100000000000001000000011111110] = .instr (.verify 0x80 0xFE) [] := by decide

theorem test_decode_classify :
    decodePort [.cmd 0b01110000000000000000000010000101] = .instr (.classify 0x85) [] := by decide

theorem test_decode_getbit :
    decodePort [.cmd 0b10000100000000000000000000001001] = .instr (.getbit 0x4000009) [] := by decide

theorem test_decode_setbit :
    decodePort [.cmd 0b10011000000000000000000000001001] = .instr (.setbit 9 true) [] := by decide

theorem test_decode_shiftwin :
    decodePort [.cmd 0b10100000000000000000000001000001] = .instr (.shiftwin 2 1) [] := by decide

theorem test_decode_readbits :
    decodePort [.cmd 0b10110000000000000000000000000000] = .instr .readbits [] := by decide

theorem test_decode_encode :
    decodePort [.cmd 0b11000000000000000000000000000010, .data 0x68, .data 0x69, .cmd 0x20000000] =
      .instr (.encode [0x68, 0x69]) [.cmd 0x20000000] := by decide

theorem test_decode_decode :
    decodePort [.cmd 0b11010000000000000000000000000010, .data 0x80, .data 0xFE] =
      .instr (.decode [0x80, 0xFE]) [] := by decide

theorem test_decode_posw : decodeWord 0b1000000011111110 = .posw 0 0xFE := by decide

theorem test_decode_valw : decodeWord 0b0110100011101001 = .valw 0x68 0xE9 := by decide

theorem test_decode_unassigned_opcode : decodePort [.cmd 0xE0000000] = .bad 0xE0000000 := by decide

theorem test_decode_nonzero_mbz : decodePort [.cmd 0x20000001] = .bad 0x20000001 := by decide

theorem test_decode_table_word : decodeTableWord 32 0xC0000002 = some (.encode [0, 0]) := by decide

theorem test_encode_setbit : encode (.setbit 9 true) = .port [.cmd 0x98000009] := by decide

/-- A port whose `CMD_IDX_BITS` are narrower than the ones taken (R8, D1). -/
def narrowPort : Params := { Config.params with cmdIdxBits := { index := 16, offset := 12, length := 9 } }

theorem test_decode_narrow_index : decodeCmdFor narrowPort 0x8000FFFF = some (.whole (.getbit 65535)) ∧
    decodeCmdFor narrowPort 0x80010000 = none ∧
    decodeCmdFor narrowPort 0x98000009 = some (.whole (.setbit 9 true)) ∧
    decodeCmdFor narrowPort 0x98010000 = none := by decide

theorem test_decode_narrow_offset_length :
    decodeCmdFor narrowPort 0xA001FFE1 = some (.whole (.shiftwin 4095 1)) ∧
    decodeCmdFor narrowPort 0xA0020001 = none ∧
    decodeCmdFor narrowPort 0xD00001FF = some (.decode 511) ∧
    decodeCmdFor narrowPort 0xD0000200 = none := by decide

/-! ## The port -/

theorem test_bad_command_refused :
    refusal (step (State.reset.presentCommand 0xF0000000)) = some .badCommand := by decide

theorem test_stray_beat_refused :
    refusal (step { State.reset with port := [.data 0] }) = some .strayBeat := by decide

theorem test_fetch_command :
    (after (step (State.reset.withFetchWord 32 0x40000068))).response = .byte 0x16 := by decide

/-- R18: the outputs of one command are gone after the next step, which here is idle. -/
theorem test_outputs_dropped :
    (after (step (after (step (State.reset.withFetchWord 32 0x40000068))))).response = .empty := by decide

theorem test_fetch_wire :
    (after (step (State.reset.withFetchWord 16 0x80FE))).ctx.cur = some 0 := by decide

/-! ## Instructions, one step each -/

theorem test_rev : (after (exec (.rev 0x01) State.reset)).response = .byte 0x80 := by decide

theorem test_csum : (after (exec (.csum 0x68) State.reset)).response = .byte 0xE9 := by decide

theorem test_verify : (after (exec (.verify 0x80 0xFE) State.reset)).response = .bit true := by decide

theorem test_verify_wrong : (after (exec (.verify 0x80 0x7E) State.reset)).response = .bit false := by
  decide

theorem test_classify : (after (exec (.classify 0xC3) State.reset)).response = .kind true 67 := by decide

theorem test_getbit :
    (after (exec (.getbit 8) (session [(0, 0x80), (1, 0xFE)] 16 0))).response = .bit true := by decide

theorem test_getbit_at_blen : refusal (exec (.getbit 10) (session [(0, 0x80), (1, 0x40)] 10 0)) =
    some .badIndex := by decide

theorem test_setbit_extends :
    (after (exec (.setbit 9 true) (session [(0, 0x80)] 1 0))).buf = [(0, 0x80), (1, 0x40)] ∧
    (after (exec (.setbit 9 true) (session [(0, 0x80)] 1 0))).blen = 10 := by decide

theorem test_setbit_clears :
    (after (exec (.setbit 9 false) (session [(0, 0x80), (1, 0x40)] 10 0))).buf = [(0, 0x80)] := by decide

theorem test_shiftwin :
    (after (exec (.shiftwin 0 4) (session [(0, 0x12), (1, 0x34)] 16 0))).buf = [(0, 0x23), (1, 0x40)] := by
  decide

theorem test_shiftwin_outside :
    refusal (exec (.shiftwin 2 1) (session [(0, 0x80)] 21 0)) = some .badIndex := by decide

theorem test_readbits :
    (after (exec .readbits (session [(0, 0xA5)] 8 8))).response =
      .bits [true, false, true, false, false, true, false, true] := by decide

theorem test_encode : (after (exec (.encode [0x68, 0x69]) State.reset)).response =
    .bytes [0x80, 0xFE, 0x68, 0xE9, 0x81, 0x7E, 0x69, 0x69] := by decide

theorem test_encode_129 : (after (exec (.encode (List.replicate 129 0x41)) State.reset)).response =
    .error .messageTooLong 129 := by
  rw [exec, execEncode, if_pos (by simp)]
  simp [State.raise, State.done, after]

/-- V-D2: the wrong checksum of position word 1 is trusted. -/
theorem test_decode_trusted :
    (after (exec (.decode [0x80, 0xFE, 0x68, 0xE9, 0x81, 0x7F, 0x69, 0x69]) State.reset)).events =
      [.fieldResolved .position 0 0x80 0xFE, .fieldResolved .character 0x68 0x68 0xE9,
        .fieldResolved .position 1 0x81 0x7F, .fieldResolved .character 0x69 0x69 0x69,
        .messageUpdated [some 0x68, some 0x69]] := by decide

/-- V-D3: the wrong checksum of position word 0 is not. -/
theorem test_decode_untrusted :
    (after (exec (.decode [0x80, 0xFF, 0x68, 0xE9, 0x81, 0x7E, 0x69, 0x69]) State.reset)).response =
      .message [none, some 0x69] := by decide

/-- R99's example: `85 5E` at `L = 44` over a pending position. -/
theorem test_posw :
    (after (exec (.posw 5 0x5E) (pending (some 3) (some 3) 44))).ctx.cur = some 5 ∧
    (after (exec (.posw 5 0x5E) (pending (some 3) (some 3) 44))).events =
      [.fieldResolved .position 5 0x85 0x5E] := by decide

/-- R100's example: position 2 at `L = 4`. -/
theorem test_posw_overflow :
    (after (exec (.posw 2 0xBE) (pending (some 1) (some 1) 4))).ctx.base = none ∧
    (after (exec (.posw 2 0xBE) (pending (some 1) (some 1) 4))).events =
      [.diagnostic .positionOverflow 0x82 0xBE] := by decide

/-- R101's example. -/
theorem test_valw :
    (after (exec (.valw 0x69 0x69) (pending (some 1) (some 1) 8))).ctx.outAt 1 = some 0x69 ∧
    (after (exec (.valw 0x69 0x69) (pending (some 1) (some 1) 8))).ctx.base = some 1 := by decide

/-- R102's example. -/
theorem test_valw_unsolicited :
    (after (exec (.valw 0x41 0x7D) State.reset)).events = [.diagnostic .unsolicitedValue 0x41 0x7D] := by
  decide

theorem test_readmsg : (after (exec .readmsg { State.reset with
    ctx := Context.fresh.record 1 0x69 })).response = .message [none, some 0x69] := by decide

/-- R115's example: the sixteenth bit of `80 FE`. -/
theorem test_feed_accepts :
    (after (exec (.feed false) filling)).blen = 32 ∧ (after (exec (.feed false) filling)).bitIndex = 16 ∧
    (after (exec (.feed false) filling)).events =
      [.bitObserved false, .fieldResolved .position 0 0x80 0xFE, .messageUpdated []] := by decide

/-- R118's example: the window `40 7F` slides to `80 FE`. -/
theorem test_feed_slides :
    (after (exec (.feed true) slipping)).buf = [(0, 0x80), (1, 0xFE)] ∧
    (after (exec (.feed true) slipping)).bitIndex = 15 ∧
    (after (exec (.feed true) slipping)).alignAttempts = 1 ∧
    (after (exec (.feed true) slipping)).events =
      [.bitObserved true, .diagnostic .checksumMismatch 0x40 0x7F] := by decide

theorem test_clear :
    (after (exec .clear filling)).buf = [] ∧ (after (exec .clear filling)).bitIndex = 0 ∧
    (after (exec .clear filling)).blen = 0 := by decide

/-- R125's example. -/
theorem test_status : (after (exec .status (after (exec (.feed false) filling)))).response =
    .status ⟨16, 0, 32, some 0, some 0, none⟩ := by decide

/-- R65: a symbol is 9 bits, an optional position a valid bit above 7 bits, `CLASSIFY`'s answer 8 bits. -/
theorem test_packing : packSym (some 0x68) = 0x168 ∧ packSym none = 0 ∧ packPos (some 5) = 0x85 ∧
    packKind true 5 = 0x85 ∧ packKind false 104 = 0x68 := by decide

/-- The two channels of R132 on the events of a failed check. -/
theorem test_channels :
    observerEvents (after (exec (.feed true) slipping)).events = [.bitObserved true] ∧
    diagnostics (after (exec (.feed true) slipping)).events =
      [.diagnostic .checksumMismatch 0x40 0x7F] := by decide

/-! ## Witnesses: for every statement with hypotheses, values that meet all of them

The clauses of a statement that splits on a range are met on both sides of its boundary. -/

theorem gap_zero (i : Nat) : Memory.getBit [] i = false := by simp [Memory.getBit, bitOfByte]

theorem reset_bufferOk : BufferOk State.reset := ⟨rfl, fun i _ => gap_zero i⟩

theorem reset_sessionOk : SessionOk State.reset where
  cursor_le := Nat.le_refl 0
  blen_le := Nat.zero_le _
  attempts := fun h => absurd h (by decide)
  pending := fun c h => absurd h (by simp [State.reset])
  content := fun p v h => absurd h (by simp [State.reset])
  accepted := fun k h => absurd h (by simp [State.reset])

theorem reset_represented : (⟨0, 0, 0, 0, Context.fresh⟩ : ShiftReg).Represents State.reset where
  fill_lt := by decide
  cursor := rfl
  window := by decide
  attempts := rfl
  context := rfl

/-- `GetbitReadsOrRefuses`, both clauses at `BLEN = 16`. -/
theorem witness_getbit :
    15 < (session [(0, 0x80), (1, 0xFE)] 16 0).blen ∧ 15 < 2 ^ 27 ∧
    (session [(0, 0x80), (1, 0xFE)] 16 0).blen ≤ 16 ∧ 2 ^ 27 - 1 < 2 ^ 27 := by decide

/-- `SetbitWritesOneBit`: inside the buffer's invariant, with a gap beyond `BLEN`. -/
theorem witness_setbit : BufferOk State.reset ∧ State.reset.blen ≤ 8 ∧ 8 ≠ 9 ∧
    0 ≠ 9 / 8 ∧ 9 < 2 ^ 27 := ⟨reset_bufferOk, by decide, by decide, by decide, by decide⟩

/-- `ShiftwinMovesTheWindow`: offset 0 is the last that a buffer of 10 bits admits. -/
theorem witness_shiftwin :
    0 + 2 ≤ ((session [(0, 0x80), (1, 0x40)] 10 0).blen + 7) / 8 ∧
    Memory.wf (session [(0, 0x80), (1, 0x40)] 10 0).buf = true ∧
    ((session [(0, 0x80), (1, 0x40)] 10 0).blen + 7) / 8 < 1 + 2 ∧ 1 < 2 ^ 23 := by decide

/-- `ReadbitsInIndexOrder`, its bits. -/
theorem witness_readbits : 15 < (session [(0, 0x80), (1, 0xFE)] 16 0).blen := by decide

/-- `ReadbitsGivesBitsOfBytes`. -/
theorem witness_bitsOf :
    (session [(0, 0x80), (1, 0xFE)] 16 0).blen = 8 * [0x80#8, 0xFE#8].length ∧
    ∀ i (h : i < [0x80#8, 0xFE#8].length),
      Memory.read (session [(0, 0x80), (1, 0xFE)] 16 0).buf i = [0x80#8, 0xFE#8][i] := by decide

/-- `ReadOnlyCommandsKeepTheSession`. -/
theorem witness_readOnly : ∃ t, exec .status State.reset = .next t := ⟨_, rfl⟩

/-- `EncodeMakesFrames` and `EncodeTooLongIsTheOnlyError`, at 128 and 129 bytes. -/
theorem witness_encode_lengths :
    (List.replicate 128 0x41#8).length ≤ 128 ∧ 128 < (List.replicate 129 0x41#8).length ∧
    ∃ t, exec (.encode (List.replicate 129 0x41#8)) State.reset = .next t ∧
      t.response = .error .messageTooLong 129 := by
  refine ⟨by simp, by simp, _, by rw [exec, execEncode, if_pos (by simp)]; rfl, by simp⟩

/-- `EncoderPassesHighBytes`: byte 1 of V-E8. -/
theorem witness_highByte : 1 < [0x41#8, 0xC3#8, 0x42#8].length ∧
    [0x41#8, 0xC3#8, 0x42#8].length ≤ 128 ∧ 0x80 ≤ ([0x41#8, 0xC3#8, 0x42#8][1]).toNat := by decide

/-- `PoswSetsOrOverflows`, both clauses: position 5 at `L = 20` and at `L = 19`. -/
theorem witness_posw : verify (posPayload 5) 0x5E = true ∧
    4 * (5#7).toNat ≤ (pending none none 20).bitIndex / 8 ∧
    (pending none none 19).bitIndex / 8 < 4 * (5#7).toNat := by decide

/-- `ValwRecordsOrIsDropped`, both clauses. -/
theorem witness_valw : verify (valPayload 0x69) 0x69 = true ∧
    (pending (some 1) (some 1) 8).ctx.cur = some 1 ∧ State.reset.ctx.cur = none := by decide

/-- `TrustIsSequentialOnly`, both clauses: `81 7F` after position 0, and after position 127, whose successor
is no position. -/
theorem witness_trust : verify 0x81 0x7F = false ∧ (0x80 ≤ (0x81#8).toNat) ∧
    (0x81#8).toNat % 128 = (0#7).toNat + 1 ∧ (0x81#8).toNat % 128 ≠ (127#7).toNat + 1 ∧
    verify 0x6F 0x19 = false ∧ (0x6F#8).toNat < 0x80 := by decide

/-- `InvalidWordsAreDiscarded`, both clauses. -/
theorem witness_invalid : verify (valPayload 0x6F) 0x19 = false ∧ verify (posPayload 1) 0x7F = false ∧
    (∀ b, State.reset.ctx.base = some b → (1#7).toNat ≠ b.toNat + 1) :=
  ⟨by decide, by decide, fun b h => absurd h (by simp [State.reset])⟩

/-- `OneConditionForEachWord`, its three conditions. -/
theorem witness_conditions :
    (verify 0x81 0x7F = false ∧ trusted Context.fresh 0x81 = false) ∧
    (verify 0x82 0xBE = true ∧ 0x80 ≤ (0x82#8).toNat ∧ 4 < 4 * ((0x82#8).toNat % 128)) ∧
    (verify 0x41 0x7D = true ∧ (0x41#8).toNat < 0x80 ∧ Context.fresh.cur = none) := by decide

/-- `SingleRegisterReading`. -/
theorem witness_singleRegister : { Config.params with keepBase := false }.keepBase = false ∧
    Context.fresh.base = Context.fresh.cur := ⟨rfl, rfl⟩

/-- `DecodeIgnoresATrailingByte`. -/
theorem witness_trailing : [0x81#8, 0x7E#8].length % 2 = 0 := by decide

/-- `ReadmsgMaterialisesTheAssembly`, both clauses; the largest position is 127. -/
theorem witness_readmsg : (∀ p, State.reset.ctx.outAt p = none) ∧
    (Context.fresh.record 127 0x7F).outAt 127 ≠ none ∧
    (∀ q : Pos, (127#7).toNat < q.toNat → (Context.fresh.record 127 0x7F).outAt q = none) :=
  ⟨fun p => Context.fresh_outAt p, by decide, fun q h => by
    have := q.isLt
    have : (127#7).toNat = 127 := rfl
    omega⟩

/-- `DecodeOfEncodeIsTheMessage`, `CorruptedPositionChecksumIsTolerated`, `CorruptedValueChecksumLosesOneSymbol`,
`StreamingEqualsBatch` and `OneSpuriousBitIsRecovered`: "hi" (V-X1), with byte 1 as the corrupted one. -/
theorem witness_hi : [0x68#8, 0x69#8].length ≤ 128 ∧ [0x68#8, 0x69#8] ≠ [] ∧
    contentBytes [0x68, 0x69] = true ∧
    (∃ t, exec (.encode [0x68, 0x69]) State.reset = .next t ∧
      t.response = .bytes [0x80, 0xFE, 0x68, 0xE9, 0x81, 0x7E, 0x69, 0x69]) ∧
    1 ≤ 1 ∧ 1 < [0x68#8, 0x69#8].length ∧ 0x7F#8 ≠ csum 0x80 ∧
    0x7F#8 ≠ csum (BitVec.ofNat 8 (0x80 + 1)) ∧ 0x7F#8 ≠ csum ([0x68#8, 0x69#8][1]) :=
  ⟨by decide, by decide, by decide, ⟨_, rfl, by decide⟩, by decide, by decide, by decide, by decide, by decide⟩

/-- `FeedAwayFromAWordOnlyStores`: the first bit and the fifteenth. -/
theorem witness_feedStores : (State.reset.bitIndex + 1) % 16 ≠ 0 ∧ Memory.wf State.reset.buf = true ∧
    ((session [] 14 14).bitIndex + 1) % 16 ≠ 0 := by decide

/-- `FeedSlidesOnAFailedCheck`: the sixteenth bit of V-S2. -/
theorem witness_feedSlides : (slipping.bitIndex + 1) % 16 = 0 ∧ Memory.wf slipping.buf = true ∧
    Memory.read (Memory.setBit slipping.buf slipping.bitIndex true) (2 * (slipping.bitIndex / 16)) = 0x40 ∧
    Memory.read (Memory.setBit slipping.buf slipping.bitIndex true) (2 * (slipping.bitIndex / 16) + 1) =
      0x7F ∧
    verify 0x40 0x7F = false := by decide

/-- `FeedRunsTheDecodedWord`: the sixteenth bit of `80 FE`. -/
theorem witness_feedAccepts : (filling.bitIndex + 1) % 16 = 0 ∧
    verify (Memory.read (Memory.setBit filling.buf filling.bitIndex false) (2 * (filling.bitIndex / 16)))
      (Memory.read (Memory.setBit filling.buf filling.bitIndex false) (2 * (filling.bitIndex / 16) + 1)) =
        true := by decide

/-- `FeedEventsInOrder` and the first clause of `CursorMovesInThreeWays`. -/
theorem witness_feed : ∃ t, exec (.feed true) State.reset = .next t := ⟨_, rfl⟩

/-- `OtherCommandsEmitNothing`, `CursorMovesInThreeWays` (third clause) and `EachElementHasItsWriters`. -/
theorem witness_other : (∃ t, exec (.rev 0) State.reset = .next t) ∧ (∀ b, Instr.rev 0 ≠ .feed b) ∧
    Instr.rev 0 ≠ .clear ∧ (∀ d, Instr.rev 0 ≠ .decode d) ∧ (∀ p c, Instr.rev 0 ≠ .posw p c) ∧
    (∀ v c, Instr.rev 0 ≠ .valw v c) ∧ (∀ j v, Instr.rev 0 ≠ .setbit j v) ∧
    ∀ a n, Instr.rev 0 ≠ .shiftwin a n :=
  ⟨⟨_, rfl⟩, by simp, by simp, by simp, by simp, by simp, by simp, by simp⟩

/-- `StatusReadsTheView`: something recorded, and nothing. -/
theorem witness_status : (Context.fresh.record 127 0).maxRec = some 127 ∧ Context.fresh.maxRec = none := by
  decide

/-- `CursorMovesInThreeWays`, second clause. -/
theorem witness_clear : ∃ t, exec .clear filling = .next t := ⟨_, rfl⟩

/-- `ConstantInputNeverResolves`, at its boundary. -/
theorem witness_constant : 15 ≤ 15 := Nat.le_refl 15

/-- `FeedRefinesTheShiftRegister`. -/
theorem witness_shiftRegister : BufferOk State.reset ∧ SessionOk State.reset ∧
    (⟨0, 0, 0, 0, Context.fresh⟩ : ShiftReg).Represents State.reset :=
  ⟨reset_bufferOk, reset_sessionOk, reset_represented⟩

/-- The three statements of a step that keeps an invariant: a presented `FEED`. -/
theorem witness_step : BufferOk (State.reset.presented (feedBeats [true])) ∧
    SessionOk (State.reset.presented (feedBeats [true])) ∧
    (∀ i rest, decodePort (State.reset.presented (feedBeats [true])).port = .instr i rest →
      leavesBuffer i = true) ∧
    ∃ t, step (State.reset.presented (feedBeats [true])) = .next t := by
  refine ⟨⟨rfl, fun i _ => gap_zero i⟩, ?_, fun i rest h => ?_, _, rfl⟩
  · exact ⟨reset_sessionOk.cursor_le, reset_sessionOk.blen_le, reset_sessionOk.attempts,
      reset_sessionOk.pending, reset_sessionOk.content, reset_sessionOk.accepted⟩
  · have e : decodePort (State.reset.presented (feedBeats [true])).port = .instr (.feed true) [] := by decide
    rw [e] at h
    injection h with h _
    subst h
    rfl

/-- `DecodingAnEncodingGivesItBack`: an instruction of each layer. -/
theorem witness_wf : Config.params.portFits = true ∧ narrowPort.portFits = true ∧
    (Instr.getbit 65535).wfFor narrowPort = true ∧ (Instr.encode [0x68, 0x69]).wf = true ∧ (Instr.posw 0 0xFE).wf = true ∧
    encode (.encode [0x68, 0x69]) = .port [.cmd 0xC0000002, .data 0x68, .data 0x69] := by decide

/-- `EncodingADecodingGivesItBack` and `StepRunsTheDecodedInstruction`. -/
theorem witness_decodes :
    decodePortFor narrowPort [.cmd 0xA001FFE1] = .instr (.shiftwin 4095 1) [] ∧
    decodePort [.cmd 0x98000009, .data 0] = .instr (.setbit 9 true) [.data 0] ∧
    State.reset.port = [] ∧ decodePort [.cmd 0xC0000002, .data 0x68] = .waiting := by decide

/-- `BadCommandExactlyWhenNoRowMatches`: an unassigned opcode, and a must-be-zero bit. -/
theorem witness_bad : (∀ r ∈ cmdRows, r.matches 0xE0000000 = false) ∧
    (∀ r ∈ cmdRows, r.matches 0x20000001 = false) ∧
    { State.reset with port := [.cmd 0xE0000000] }.port = [.cmd 0xE0000000] := by decide

/-- `CommandRowsDoNotOverlap`. -/
theorem witness_row : CmdRow.matches ⟨"GETBIT", 0xF8000000, 0x80000000⟩ 0x87FFFFFF = true ∧
    decodeCmd 0x87FFFFFF = some (.whole (.getbit 0x7FFFFFF)) := by decide

/-- `EncodeTakesItsDataBeats`, both clauses at `len = 2`. -/
theorem witness_beats : [0x68#8].length < (2#9).toNat ∧ (2#9).toNat ≤ [0x68#8, 0x69#8].length ∧
    { State.reset with port := .cmd (0xC#4 ++ 0#19 ++ 2#9) :: [0x68#8].map .data }.port =
      .cmd (0xC#4 ++ 0#19 ++ 2#9) :: [0x68#8].map .data := by decide

/-- `PortIsNotRead`: a command that completes, and one that is refused. -/
theorem witness_port : (∃ t, exec .status State.reset = .next t) ∧
    exec (.getbit 0) State.reset = .refused .badIndex := ⟨⟨_, rfl⟩, rfl⟩

/-- `ConditionsKeepTheirKind`: a reported diagnostic, and an error. -/
theorem witness_conditionKinds :
    (∃ t, exec (.valw 0x41 0x7D) State.reset = .next t ∧
      .diagnostic .unsolicitedValue 0x41 0x7D ∈ t.events) ∧
    ∃ t, exec (.encode (List.replicate 129 0x41#8)) State.reset = .next t ∧
      t.response = .error .messageTooLong 129 := by
  refine ⟨⟨_, rfl, by decide⟩, _, by rw [exec, execEncode, if_pos (by simp)]; rfl, by simp⟩

/-- `FiniteCapacityRefuses`, both outcomes of a `FEED` at 3 and 2 bytes. -/
theorem witness_capacity : ¬ 3 < (max State.reset.blen (State.reset.bitIndex + 1) + 16 + 7) / 8 ∧
    2 < (max State.reset.blen (State.reset.bitIndex + 1) + 16 + 7) / 8 := by decide

end Sys2Proof.Tests
end

section
/-! Decode and encode agree, in both directions (R51, R52, R63, R65). Both rest on one inversion of the port
decoder, `decodePortFor_eq_instr`. -/

namespace Sys2Proof

/-- The room of the command word for the index fields (R63). -/
theorem portFits_iff {P : Params} : P.portFits = true ↔
    P.cmdIdxBits.index + 1 ≤ 28 ∧ P.cmdIdxBits.offset + 5 ≤ 28 ∧ P.cmdIdxBits.length ≤ 28 := by
  simp only [Params.portFits, Config.operandBits, Bool.and_eq_true, decide_eq_true_eq]

/-- A value of a field fits every room at least as wide. -/
theorem lt_room {i width room : Nat} (h : i < 2 ^ width) (hw : width ≤ room) : i < 2 ^ room :=
  Nat.lt_of_lt_of_le h (Nat.pow_le_pow_right (by decide) hw)

/-- All that the port can have held when it decodes to an instruction: a command word, and as many data beats
as it asks for, before the rest (R61, R63, R65). -/
theorem decodePortFor_eq_instr {P : Params} {beats rest : List PortBeat} {i : Instr} :
    decodePortFor P beats = .instr i rest ↔
      (∃ w, beats = .cmd w :: rest ∧ decodeCmdFor P w = some (.whole i)) ∨
      (∃ w msg, beats = .cmd w :: (msg.map .data ++ rest) ∧ i = .encode msg ∧
        decodeCmdFor P w = some (.encode msg.length)) ∨
      ∃ w input, beats = .cmd w :: (input.map .data ++ rest) ∧ i = .decode input ∧
        decodeCmdFor P w = some (.decode input.length) := by
  constructor
  · intro h
    unfold decodePortFor at h
    split at h
    case h_1 => cases h
    case h_2 => cases h
    case h_3 w tl =>
      split at h
      case h_1 => cases h
      case h_2 j hw =>
        cases h
        exact .inl ⟨w, rfl, hw⟩
      case h_3 len hw =>
        split at h
        case h_1 msg rest' ht =>
          cases h
          obtain ⟨rfl, rfl⟩ := takeBeats_eq_some ht
          exact .inr (.inl ⟨w, msg, rfl, rfl, hw⟩)
        case h_2 => cases h
      case h_4 len hw =>
        split at h
        case h_1 input rest' ht =>
          cases h
          obtain ⟨rfl, rfl⟩ := takeBeats_eq_some ht
          exact .inr (.inr ⟨w, input, rfl, rfl, hw⟩)
        case h_2 => cases h
  · rintro (⟨w, rfl, hw⟩ | ⟨w, msg, rfl, rfl, hw⟩ | ⟨w, input, rfl, rfl, hw⟩)
    · exact decodePortFor_whole hw rest
    · simp [decodePortFor, hw, takeBeats_map]
    · simp [decodePortFor, hw, takeBeats_map]

/-! ## Decode of encode -/

/-- A command without data beats is read back from its word, when its word is. -/
theorem decodePortFor_oneWord {P : Params} {w : Word32} {i : Instr} {beats : List PortBeat}
    (hw : decodeCmdFor P w = some (.whole i)) (h : oneWord w = .port beats) (rest : List PortBeat) :
    decodePortFor P (beats ++ rest) = .instr i rest := by
  cases h
  exact decodePortFor_whole hw rest

/-- The beats of a well-formed command, with any beats after them, decode to the command and leave exactly
those beats (R63, R65). -/
theorem decodePortFor_encode {P : Params} {i : Instr} {beats : List PortBeat} (hP : P.portFits = true)
    (hi : i.wfFor P = true) (h : encode i = .port beats) (rest : List PortBeat) :
    decodePortFor P (beats ++ rest) = .instr i rest := by
  obtain ⟨hindex, hoffset, hlength⟩ := portFits_iff.mp hP
  cases i with
  | clear => exact decodePortFor_oneWord (decodeCmdFor_clear P 0) h rest
  | feed bit => exact decodePortFor_oneWord (decodeCmdFor_feed_word P bit) h rest
  | status => exact decodePortFor_oneWord (decodeCmdFor_status P 0) h rest
  | readmsg => exact decodePortFor_oneWord (decodeCmdFor_readmsg P 0) h rest
  | rev b => exact decodePortFor_oneWord (decodeCmdFor_rev_word P b) h rest
  | csum b => exact decodePortFor_oneWord (decodeCmdFor_csum_word P b) h rest
  | verify p c => exact decodePortFor_oneWord (decodeCmdFor_verify_word P p c) h rest
  | classify p => exact decodePortFor_oneWord (decodeCmdFor_classify_word P p) h rest
  | getbit i =>
    have hi : i < 2 ^ P.cmdIdxBits.index := of_decide_eq_true hi
    exact decodePortFor_oneWord (decodeCmdFor_getbit_word hi (lt_room hi (by omega))) h rest
  | setbit i v =>
    have hi : i < 2 ^ P.cmdIdxBits.index := of_decide_eq_true hi
    exact decodePortFor_oneWord (decodeCmdFor_setbit_word v hi (lt_room hi (by omega))) h rest
  | shiftwin a n =>
    have ha : a < 2 ^ P.cmdIdxBits.offset := of_decide_eq_true hi
    exact decodePortFor_oneWord (decodeCmdFor_shiftwin_word n ha (lt_room ha (by omega))) h rest
  | readbits => exact decodePortFor_oneWord (decodeCmdFor_readbits P 0) h rest
  | encode msg =>
    have hlen : msg.length < 2 ^ 9 := of_decide_eq_true hi
    cases h
    refine decodePortFor_eq_instr.mpr (.inr (.inl ⟨_, msg, rfl, rfl, ?_⟩))
    rw [decodeCmdFor_encode_word, BitVec.toNat_ofNat, Nat.mod_eq_of_lt hlen]
  | decode input =>
    have hlen : input.length < 2 ^ P.cmdIdxBits.length := of_decide_eq_true hi
    cases h
    exact decodePortFor_eq_instr.mpr
      (.inr (.inr ⟨_, input, rfl, rfl, decodeCmdFor_decode_word hlen (lt_room hlen hlength)⟩))
  | posw p c => cases h
  | valw v c => cases h

/-- The word of a wire instruction decodes to it (R51, R52). -/
theorem decodeWord_encode {i : Instr} {w : Word16} (h : encode i = .wire w) : decodeWord w = i := by
  cases i with
  | posw p c =>
    cases h
    exact decodeWord_posw p c
  | valw v c =>
    cases h
    exact decodeWord_valw v c
  | _ => cases h

/-- The code of a well-formed instruction decodes to it. -/
theorem decodeCodeFor_encode {P : Params} {i : Instr} (hP : P.portFits = true) (hi : i.wfFor P = true) :
    decodeCodeFor P (encode i) = some i := by
  cases h : encode i with
  | wire w => rw [decodeCodeFor, decodeWord_encode h]
  | port beats =>
    have hd : decodePortFor P beats = .instr i [] := by
      simpa using decodePortFor_encode hP hi h []
    simp [decodeCodeFor, hd]

/-! ## Encode of decode -/

/-- A command word is the encoding of the command it was decoded to, whose operands fit: the whole code of a
command without data beats, the first beat of `ENCODE` and `DECODE` (R63). -/
def Cmd.EncodedBy (P : Params) (w : Word32) : Cmd → Prop
  | .whole i => i.wfFor P = true ∧ Sys2Proof.encode i = oneWord w
  | .encode len => len < 2 ^ 9 ∧ w = 0xC#4 ++ 0#19 ++ BitVec.ofNat 9 len
  | .decode len => len < 2 ^ P.cmdIdxBits.length ∧ w = 0xD#4 ++ BitVec.ofNat 28 len

/-- A must-be-zero field that answers a command: it is zero (R63, R64). -/
theorem whenZero_eq_some {n : Nat} {mbz : BitVec n} {c c' : Cmd} :
    whenZero mbz c' = some c ↔ mbz = 0#n ∧ c' = c := by
  show (if mbz = 0#n then some c' else none) = some c ↔ _
  split <;> simp [*]

/-- A command behind a must-be-zero field has one encoding if it has when the field is zero. -/
theorem encodedBy_of_whenZero {P : Params} {w : Word32} {n : Nat} {mbz : BitVec n} {c c' : Cmd}
    (h : whenZero mbz c' = some c) (henc : mbz = 0#n → c'.EncodedBy P w) : c.EncodedBy P w := by
  obtain ⟨hzero, rfl⟩ := whenZero_eq_some.mp h
  exact henc hzero

/-- A command with an index field has one encoding if it has when the index fits the field. -/
theorem encodedBy_of_indexField {P : Params} {w : Word32} {n width : Nat} {room : BitVec n} {f : Nat → Cmd}
    {c : Cmd} (h : indexField room width f = some c)
    (henc : room.toNat < 2 ^ width → (f room.toNat).EncodedBy P w) : c.EncodedBy P w := by
  obtain ⟨hroom, rfl⟩ := indexField_eq_some.mp h
  exact henc hroom

/-- A word is its three fields, as the encoder writes them. -/
theorem fields_append {k m n : Nat} (w : BitVec (k + m + n)) :
    w.extractLsb' (n + m) k ++ w.extractLsb' n m ++ w.extractLsb' 0 n = w := by
  have hhigh := parts_append (m := k) (n := m) (w.extractLsb' n (k + m))
  rw [field_field w n (k + m) m k (by omega), field_field w n (k + m) 0 m (by omega)] at hhigh
  exact (congrArg (· ++ w.extractLsb' 0 n) hhigh).trans (parts_append w)

/-- A word from its two parts. -/
theorem append_eq_of_parts {m n : Nat} {w : BitVec (m + n)} {hi : BitVec m} {lo : BitVec n}
    (hhi : w.extractLsb' n m = hi) (hlo : w.extractLsb' 0 n = lo) : hi ++ lo = w := by
  rw [← hhi, ← hlo, parts_append]

/-- A word from its two high fields, the rest as it stands. -/
theorem append_eq_of_fields {k m n : Nat} {w : BitVec (k + m + n)} {hi : BitVec k} {mid : BitVec m}
    (hhi : w.extractLsb' (n + m) k = hi) (hmid : w.extractLsb' n m = mid) :
    hi ++ mid ++ w.extractLsb' 0 n = w := by
  rw [← hhi, ← hmid, fields_append]

/-- A bit as the vector of its width. -/
theorem ofBool_getLsbD {n : Nat} (x : BitVec n) (k : Nat) : BitVec.ofBool (x.getLsbD k) = x.extractLsb' k 1 := by
  apply BitVec.eq_of_getLsbD_eq
  intro j hj
  obtain rfl : j = 0 := by omega
  simp

/-- The opcode field by its value (R61). -/
theorem opcode_eq {w : Word32} {op : Nat} (h : (w.extractLsb' 28 4).toNat = op) :
    w.extractLsb' 28 4 = BitVec.ofNat 4 op := by
  rw [← h, BitVec.ofNat_toNat, BitVec.setWidth_eq]

/-- A command without operands: its word is the opcode above zeros. -/
theorem encodedBy_of_zero_operand {P : Params} {w : Word32} {op : Nat} {i : Instr} {c : Cmd}
    (hop : (w.extractLsb' 28 4).toNat = op) (h : whenZero (w.extractLsb' 0 28) (.whole i) = some c)
    (hwf : i.wfFor P = true) (henc : encode i = oneWord (BitVec.ofNat 4 op ++ 0#28)) : c.EncodedBy P w := by
  refine encodedBy_of_whenZero h fun hz => ⟨hwf, henc.trans (congrArg oneWord ?_)⟩
  exact append_eq_of_parts (m := 4) (n := 28) (opcode_eq hop) hz

/-- A command with one byte: its word is the opcode, zeros and the byte. -/
theorem encodedBy_of_byte_operand {P : Params} {w : Word32} {op : Nat} {i : Instr} {c : Cmd}
    (hop : (w.extractLsb' 28 4).toNat = op) (h : whenZero (w.extractLsb' 8 20) (.whole i) = some c)
    (hwf : i.wfFor P = true)
    (henc : encode i = oneWord (BitVec.ofNat 4 op ++ 0#20 ++ w.extractLsb' 0 8)) : c.EncodedBy P w := by
  refine encodedBy_of_whenZero h fun hz => ⟨hwf, henc.trans (congrArg oneWord ?_)⟩
  exact append_eq_of_fields (k := 4) (m := 20) (n := 8) (opcode_eq hop) hz

/-- Each command word that decodes has one meaning: it is the encoding of what it decodes to (R63). The cases
are the opcodes, in the order of the table. -/
theorem encodedBy_of_decodeCmdFor {P : Params} {w : Word32} {c : Cmd} (h : decodeCmdFor P w = some c) :
    c.EncodedBy P w := by
  unfold decodeCmdFor at h
  split at h
  case h_1 hop => exact encodedBy_of_zero_operand hop h rfl rfl -- `CLEAR`
  case h_2 hop => -- `FEED`
    refine encodedBy_of_whenZero h fun hz => ⟨rfl, congrArg oneWord ?_⟩
    rw [ofBool_getLsbD]
    exact append_eq_of_fields (k := 4) (m := 27) (n := 1) (opcode_eq hop) hz
  case h_3 hop => exact encodedBy_of_zero_operand hop h rfl rfl -- `STATUS`
  case h_4 hop => exact encodedBy_of_zero_operand hop h rfl rfl -- `READMSG`
  case h_5 hop => exact encodedBy_of_byte_operand hop h rfl rfl -- `REV`
  case h_6 hop => exact encodedBy_of_byte_operand hop h rfl rfl -- `CSUM`
  case h_7 hop => -- `VERIFY`
    have hpair : w.extractLsb' 8 8 ++ w.extractLsb' 0 8 = w.extractLsb' 0 16 := by
      have := parts_append (m := 8) (n := 8) (w.extractLsb' 0 16)
      rwa [field_field w 0 16 8 8 (by omega), field_field w 0 16 0 8 (by omega)] at this
    refine encodedBy_of_whenZero h fun hz => ⟨rfl, congrArg oneWord ?_⟩
    rw [BitVec.append_assoc, hpair]
    exact append_eq_of_fields (k := 4) (m := 12) (n := 16) (opcode_eq hop) hz
  case h_8 hop => exact encodedBy_of_byte_operand hop h rfl rfl -- `CLASSIFY`
  case h_9 hop => -- `GETBIT`
    refine encodedBy_of_indexField h fun hi => ⟨decide_eq_true hi, congrArg oneWord ?_⟩
    rw [BitVec.ofNat_toNat, BitVec.setWidth_eq]
    exact append_eq_of_parts (m := 4) (n := 28) (opcode_eq hop) rfl
  case h_10 hop => -- `SETBIT`
    refine encodedBy_of_indexField h fun hi => ⟨decide_eq_true hi, congrArg oneWord ?_⟩
    rw [BitVec.ofNat_toNat, BitVec.setWidth_eq, ofBool_getLsbD]
    exact append_eq_of_fields (k := 4) (m := 1) (n := 27) (opcode_eq hop) rfl
  case h_11 hop => -- `SHIFTWIN`
    refine encodedBy_of_indexField h fun hi => ⟨decide_eq_true hi, congrArg oneWord ?_⟩
    rw [BitVec.ofNat_toNat, BitVec.setWidth_eq]
    exact append_eq_of_fields (k := 4) (m := 23) (n := 5) (opcode_eq hop) rfl
  case h_12 hop => exact encodedBy_of_zero_operand hop h rfl rfl -- `READBITS`
  case h_13 hop => -- `ENCODE`
    refine encodedBy_of_whenZero h fun hz => ⟨BitVec.isLt _, ?_⟩
    rw [BitVec.ofNat_toNat, BitVec.setWidth_eq]
    exact (append_eq_of_fields (k := 4) (m := 19) (n := 9) (opcode_eq hop) hz).symm
  case h_14 hop => -- `DECODE`
    refine encodedBy_of_indexField h fun hi => ⟨hi, ?_⟩
    rw [BitVec.ofNat_toNat, BitVec.setWidth_eq]
    exact (append_eq_of_parts (m := 4) (n := 28) (opcode_eq hop) rfl).symm
  case h_15 => cases h -- an unassigned opcode (R62)

/-- A command that the port decodes to is well formed, and the beats taken are its encoding. -/
theorem encode_of_decodePortFor {P : Params} {beats rest : List PortBeat} {i : Instr}
    (h : decodePortFor P beats = .instr i rest) :
    i.wfFor P = true ∧ ∃ bs, encode i = .port bs ∧ beats = bs ++ rest := by
  rcases decodePortFor_eq_instr.mp h with
    ⟨w, rfl, hw⟩ | ⟨w, msg, rfl, rfl, hw⟩ | ⟨w, input, rfl, rfl, hw⟩
  · obtain ⟨hwf, henc⟩ := encodedBy_of_decodeCmdFor hw
    exact ⟨hwf, _, henc, rfl⟩
  · obtain ⟨hlen, rfl⟩ := encodedBy_of_decodeCmdFor hw
    exact ⟨decide_eq_true hlen, _, rfl, rfl⟩
  · obtain ⟨hlen, rfl⟩ := encodedBy_of_decodeCmdFor hw
    exact ⟨decide_eq_true hlen, _, rfl, rfl⟩

/-- Every wire word is the encoding of what it decodes to: the kind is its top bit, and the two fields are the
other fifteen (R50, R51, R52, R55). -/
theorem encode_decodeWord (w : Word16) : encode (decodeWord w) = .wire w := by
  have hkind := ofBool_getLsbD w 15
  unfold decodeWord
  split
  case isTrue hbit =>
    rw [hbit] at hkind
    exact congrArg Code.wire (append_eq_of_fields (k := 1) (m := 7) (n := 8) hkind.symm rfl)
  case isFalse hbit =>
    rw [Bool.eq_false_iff.mpr hbit] at hkind
    exact congrArg Code.wire (append_eq_of_fields (k := 1) (m := 7) (n := 8) hkind.symm rfl)

/-- Settles O49: the code decodes by `decodeCodeFor_encode`, the beats by `decodePortFor_encode`. -/
theorem decodingAnEncodingGivesItBack : Obligations.DecodingAnEncodingGivesItBack :=
  ⟨by decide, fun _ _ hP hi =>
    ⟨decodeCodeFor_encode hP hi, fun _ rest h => decodePortFor_encode hP hi h rest⟩⟩

/-- Settles O50: commands by inverting the port decoder, wire words by their fields. -/
theorem encodingADecodingGivesItBack : Obligations.EncodingADecodingGivesItBack :=
  ⟨fun _ _ _ _ => encode_of_decodePortFor, encode_decodeWord⟩

end Sys2Proof
end

section
/-! The machine as a whole: every instruction completes but for two bad indices (R6, R138, R146), and none
reads the port (R5, R154). -/

namespace Sys2Proof.Machine

/-! ## Which instructions complete -/

/-- An instruction completes from a state: it answers a next state (R6 (a)). -/
def Completes (i : Instr) (s : State) : Prop := ∃ t, exec i s = .next t

/-- A meaning that ends in `done` completes. -/
theorem completes_of_done {i : Instr} {s u : State} {r : Response} {es : List Event}
    (h : exec i s = u.done r es) : Completes i s := ⟨_, h⟩

/-- `ENCODE` of a message that is too long completes with the error (R91). -/
theorem execEncode_of_gt {msg : List Byte} {s : State} (h : Config.maxMsg < msg.length) :
    execEncode msg s = s.done (.error .messageTooLong msg.length) [] := if_pos h

/-- `ENCODE` of a message of at most `MAX_MSG` bytes answers its frames (R90). -/
theorem execEncode_of_le {msg : List Byte} {s : State} (h : msg.length ≤ Config.maxMsg) :
    execEncode msg s = s.done (.bytes (framesFrom 0 msg)) [] := if_neg (Nat.not_lt.mpr h)

theorem completes_feed (bit : Bit) (s : State) : Completes (.feed bit) s := by
  rcases execFeed_cases bit s with ⟨-, h⟩ | ⟨p, c, -, -, -, -, h⟩ | ⟨p, c, -, -, -, -, h⟩ <;>
    exact completes_of_done h

theorem completes_encode (msg : List Byte) (s : State) : Completes (.encode msg) s := by
  rcases Nat.lt_or_ge Config.maxMsg msg.length with h | h
  · exact completes_of_done (execEncode_of_gt h)
  · exact completes_of_done (execEncode_of_le h)

/-- `GETBIT` below `BLEN` answers the bit (R81). -/
theorem execGetbit_of_lt {i : Nat} {s : State} (h : i < s.blen) :
    execGetbit i s = s.done (.bit (Memory.getBit s.buf i)) [] := if_neg (Nat.not_le.mpr h)

/-- `GETBIT` at or beyond `BLEN` is refused (R81). -/
theorem execGetbit_of_ge {i : Nat} {s : State} (h : s.blen ≤ i) :
    execGetbit i s = .refused .badIndex := if_pos h

/-- `SHIFTWIN` on a window whose bytes exist shifts it (R83). -/
theorem execShiftwin_of_le {a : Nat} {n : BitVec 5} {s : State} (h : a + 2 ≤ nbytes s.blen) :
    execShiftwin a n s = (s.shiftBufWindow a n.toNat).done .empty [] := if_neg (Nat.not_lt.mpr h)

/-- `SHIFTWIN` on a window that is not wholly inside the buffer is refused (R83). -/
theorem execShiftwin_of_gt {a : Nat} {n : BitVec 5} {s : State} (h : nbytes s.blen < a + 2) :
    execShiftwin a n s = .refused .badIndex := if_pos h

/-- The two meanings that can be refused, and when (R138). -/
theorem completes_or_badIndex (i : Instr) (s : State) :
    Completes i s ∨
    (exec i s = .refused .badIndex ∧
      ((∃ j, i = .getbit j ∧ s.blen ≤ j) ∨
        ∃ a n, i = .shiftwin a n ∧ nbytes s.blen < a + 2)) := by
  cases i with
  | getbit j =>
    rcases Nat.lt_or_ge j s.blen with h | h
    · exact .inl (completes_of_done (execGetbit_of_lt h))
    · exact .inr ⟨execGetbit_of_ge h, .inl ⟨j, rfl, h⟩⟩
  | shiftwin a n =>
    rcases Nat.lt_or_ge (nbytes s.blen) (a + 2) with h | h
    · exact .inr ⟨execShiftwin_of_gt h, .inr ⟨a, n, rfl, h⟩⟩
    · exact .inl (completes_of_done (execShiftwin_of_le h))
  | feed bit => exact .inl (completes_feed bit s)
  | encode msg => exact .inl (completes_encode msg s)
  | clear | status | readmsg | rev | csum | verify | classify | setbit | readbits | decode | posw | valw =>
    exact .inl (completes_of_done rfl)

/-- Settles O58: `NBYTES` is written out in the statement (R11). -/
theorem onlyBadIndicesAreRefused : Obligations.OnlyBadIndicesAreRefused := completes_or_badIndex

/-! ## The port is not read -/

/-- The state with other beats on the port (log 1). -/
def State.withPort (s : State) (beats : List PortBeat) : State := { s with port := beats }

/-- An outcome with other beats on the port of the state it answers. -/
def outcomeWithPort (beats : List PortBeat) :
    Host.Outcome State Fault Refusal → Host.Outcome State Fault Refusal
  | .next t => .next (t.withPort beats)
  | .fault r => .fault r
  | .refused r => .refused r

section WithPort
variable (s : State) (beats : List PortBeat)

/-- Both ends of `GETBIT` are those of the state with other beats: neither `BUF` nor `BLEN` is on the port. -/
theorem exec_getbit_withPort (i : Nat) :
    exec (.getbit i) (s.withPort beats) = outcomeWithPort beats (exec (.getbit i) s) := by
  show execGetbit i (s.withPort beats) = outcomeWithPort beats (execGetbit i s)
  rcases Nat.lt_or_ge i s.blen with h | h
  · rw [execGetbit_of_lt h]
    exact execGetbit_of_lt h
  · rw [execGetbit_of_ge h]
    exact execGetbit_of_ge h

theorem exec_shiftwin_withPort (a : Nat) (n : BitVec 5) :
    exec (.shiftwin a n) (s.withPort beats) = outcomeWithPort beats (exec (.shiftwin a n) s) := by
  show execShiftwin a n (s.withPort beats) = outcomeWithPort beats (execShiftwin a n s)
  rcases Nat.lt_or_ge (nbytes s.blen) (a + 2) with h | h
  · rw [execShiftwin_of_gt h]
    exact execShiftwin_of_gt h
  · rw [execShiftwin_of_le h]
    exact execShiftwin_of_le h

theorem exec_encode_withPort (msg : List Byte) :
    exec (.encode msg) (s.withPort beats) = outcomeWithPort beats (exec (.encode msg) s) := by
  show execEncode msg (s.withPort beats) = outcomeWithPort beats (execEncode msg s)
  rcases Nat.lt_or_ge Config.maxMsg msg.length with h | h
  · rw [execEncode_of_gt h, execEncode_of_gt h]
    rfl
  · rw [execEncode_of_le h, execEncode_of_le h]
    rfl

/-- The gate and the check of `FEED` read the buffer and `bitIndex`, so the same of its three ends applies. -/
theorem exec_feed_withPort (bit : Bit) :
    exec (.feed bit) (s.withPort beats) = outcomeWithPort beats (exec (.feed bit) s) := by
  show execFeed bit (s.withPort beats) = outcomeWithPort beats (execFeed bit s)
  rcases execFeed_cases bit s with
    ⟨hgate, h⟩ | ⟨p, c, hgate, hp, hc, hv, h⟩ | ⟨p, c, hgate, hp, hc, hv, h⟩
  · rw [h]
    exact execFeed_stored hgate
  · rw [h]
    exact execFeed_failed hgate hp hc hv
  · rw [h]
    exact execFeed_accepted hgate hp hc hv

/-- No instruction reads or changes the beats presented after it: the port goes through `exec` as it is. -/
theorem exec_withPort (i : Instr) :
    exec i (s.withPort beats) = outcomeWithPort beats (exec i s) := by
  cases i with
  | getbit i => exact exec_getbit_withPort s beats i
  | shiftwin a n => exact exec_shiftwin_withPort s beats a n
  | encode msg => exact exec_encode_withPort s beats msg
  | feed bit => exact exec_feed_withPort s beats bit
  | clear | status | readmsg | rev | csum | verify | classify | setbit | readbits | decode | posw | valw =>
    rfl

end WithPort

/-- Settles O57: both outcomes are cases of `exec_withPort`. -/
theorem portIsNotRead : Obligations.PortIsNotRead := by
  intro i s beats
  have hport := exec_withPort s beats i
  constructor
  · intro t h
    rw [h] at hport
    exact hport
  · intro r h
    rw [h] at hport
    exact hport

end Sys2Proof.Machine
end

section
/-! What an instruction does to the session, said once (R35, R115 to R119, R124), and the invariants that every
step keeps (R11, R22). -/

namespace Sys2Proof.Machine

/-! ## The effect of an instruction on the session -/

/-- The commands that write none of the session's elements: the read-only and the pure ones (R35, R106). -/
def keepsSession : Instr → Bool
  | .status | .readmsg | .rev _ | .csum _ | .verify _ _ | .classify _ | .getbit _ | .readbits
  | .encode _ | .decode _ => true
  | .clear | .feed _ | .setbit _ _ | .shiftwin _ _ | .posw _ _ | .valw _ _ => false

/-- What each instruction that completes makes of a session. The three ends of `FEED` are apart, each with what
the gate and the check found; the window of the check is written by the cursor before the bit (R117). The
state on the right counts for its session alone. -/
inductive SessionEffect (s : State) : Instr → State → Prop where
  /-- `CLEAR` (R124). -/
  | cleared : SessionEffect s .clear State.reset
  /-- `FEED` away from a word's end (R116). -/
  | stored (bit : Bit) (gate : (s.bitIndex + 1) % 16 ≠ 0) : SessionEffect s (.feed bit) (s.storeBit bit)
  /-- `FEED` whose check fails (R118). -/
  | slid (bit : Bit) (gate : (s.bitIndex + 1) % 16 = 0) :
      SessionEffect s (.feed bit) (s.storeBit bit).slide
  /-- `FEED` whose check succeeds (R119). -/
  | accepted (bit : Bit) (p c : Byte) (gate : (s.bitIndex + 1) % 16 = 0)
      (payload : Memory.read (s.storeBit bit).buf (2 * (s.bitIndex / 16)) = p)
      (checksum : Memory.read (s.storeBit bit).buf (2 * (s.bitIndex / 16) + 1) = c)
      (valid : verify p c = true) :
      SessionEffect s (.feed bit) ((s.storeBit bit).interpretWord Config.params p c).1.acceptWord
  /-- `SETBIT` (R82). -/
  | bitSet (i : Nat) (v : Bit) : SessionEffect s (.setbit i v) (s.putBufBit i v)
  /-- `SHIFTWIN` (R83). -/
  | windowShifted (a : Nat) (n : BitVec 5) :
      SessionEffect s (.shiftwin a n) (s.shiftBufWindow a n.toNat)
  /-- `POSW` (R99). -/
  | position (p : Pos) (c : Byte) :
      SessionEffect s (.posw p c) (s.interpretWord Config.params (posPayload p) c).1
  /-- `VALW` (R101). -/
  | value (v : Pos) (c : Byte) :
      SessionEffect s (.valw v c) (s.interpretWord Config.params (valPayload v) c).1
  /-- The other commands. -/
  | kept {i : Instr} (h : keepsSession i = true) : SessionEffect s i s

/-- An instruction that answers a next state has the effect of the state in which its command is done. -/
theorem effect_of_done {i : Instr} {s t u : State} {r : Response} {es : List Event}
    (h : exec i s = .next t) (hdone : exec i s = u.done r es) (heff : SessionEffect s i u) :
    ∃ u, SessionEffect s i u ∧ t.session = u.session := by
  rw [hdone, State.done_eq_next] at h
  exact ⟨u, heff, h ▸ rfl⟩

theorem feed_effect {bit : Bit} {s t : State} (h : exec (.feed bit) s = .next t) :
    ∃ u, SessionEffect s (.feed bit) u ∧ t.session = u.session := by
  rcases execFeed_cases bit s with
    ⟨hgate, hdone⟩ | ⟨p, c, hgate, -, -, -, hdone⟩ | ⟨p, c, hgate, hp, hc, hv, hdone⟩
  · exact effect_of_done h hdone (.stored bit hgate)
  · exact effect_of_done h hdone (.slid bit hgate)
  · rw [windowOffset_eq hgate] at hp hc
    exact effect_of_done h hdone (.accepted bit p c hgate hp hc hv)

/-- All that an instruction which answers a next state can have done with the session. -/
theorem exec_effect {i : Instr} {s t : State} (h : exec i s = .next t) :
    ∃ u, SessionEffect s i u ∧ t.session = u.session := by
  cases i with
  | feed bit => exact feed_effect h
  | clear =>
    have hdone : (State.reset.taking s.port).done .empty [] = .next t := h
    rw [State.done_eq_next] at hdone
    exact ⟨State.reset, .cleared, hdone ▸ rfl⟩
  | setbit j v => exact effect_of_done h rfl (.bitSet j v)
  | shiftwin a n =>
    rcases Nat.lt_or_ge (nbytes s.blen) (a + 2) with hgt | hle
    · rw [show exec (.shiftwin a n) s = .refused .badIndex from execShiftwin_of_gt hgt] at h
      cases h
    · exact effect_of_done h (execShiftwin_of_le hle) (.windowShifted a n)
  | posw p c => exact effect_of_done h rfl (.position p c)
  | valw v c => exact effect_of_done h rfl (.value v c)
  | getbit j =>
    rcases Nat.lt_or_ge j s.blen with hlt | hge
    · exact effect_of_done h (execGetbit_of_lt hlt) (.kept rfl)
    · rw [show exec (.getbit j) s = .refused .badIndex from execGetbit_of_ge hge] at h
      cases h
  | encode msg =>
    rcases Nat.lt_or_ge Config.maxMsg msg.length with hgt | hle
    · exact effect_of_done h (execEncode_of_gt hgt) (.kept rfl)
    · exact effect_of_done h (execEncode_of_le hle) (.kept rfl)
  | status | readmsg | rev | csum | verify | classify | readbits | decode =>
    exact effect_of_done h rfl (.kept rfl)

/-- No instruction writes the port: putting the port that is there changes nothing, before and after. -/
theorem port_of_exec {i : Instr} {s t : State} (h : exec i s = .next t) : t.port = s.port := by
  have hport : exec i s = outcomeWithPort s.port (exec i s) := exec_withPort s s.port i
  rw [h] at hport
  have ht : t = t.withPort s.port := Host.Outcome.next.inj hport
  calc t.port = (t.withPort s.port).port := congrArg State.port ht
    _ = s.port := rfl

/-- Settles O39: the session by its effects, the port by `port_of_exec`. -/
theorem eachElementHasItsWriters : Obligations.EachElementHasItsWriters := by
  intro i s t h
  obtain ⟨u, heff, hsession⟩ := exec_effect h
  have hbuf : t.buf = u.buf := congrArg Session.buf hsession
  have hblen : t.blen = u.blen := congrArg Session.blen hsession
  have hattempts : t.alignAttempts = u.alignAttempts := congrArg Session.alignAttempts hsession
  have hctx : t.ctx = u.ctx := congrArg Session.ctx hsession
  rw [hbuf, hblen, hattempts, hctx]
  refine ⟨fun hfeed hclear hset hshift => ?_, fun hfeed hclear => ?_,
    fun hfeed hclear hpos hval => ?_, port_of_exec h⟩
  · cases heff with
    | cleared => exact absurd rfl hclear
    | stored bit | slid bit | accepted bit => exact absurd rfl (hfeed bit)
    | bitSet j v => exact absurd rfl (hset j v)
    | windowShifted a n => exact absurd rfl (hshift a n)
    | position | value | kept => exact ⟨rfl, rfl⟩
  · cases heff with
    | cleared => exact absurd rfl hclear
    | stored bit | slid bit | accepted bit => exact absurd rfl (hfeed bit)
    | bitSet | windowShifted | position | value | kept => rfl
  · cases heff with
    | cleared => exact absurd rfl hclear
    | stored bit | slid bit | accepted bit => exact absurd rfl (hfeed bit)
    | position p c => exact absurd rfl (hpos p c)
    | value v c => exact absurd rfl (hval v c)
    | bitSet | windowShifted | kept => rfl

/-! ## Invariants and steps -/

/-- A predicate of states that speaks of the session alone. -/
def OfSession (Inv : State → Prop) : Prop := ∀ ⦃s t : State⦄, t.session = s.session → Inv s → Inv t

/-- The induction step of every invariant, once: a step keeps what is kept by the effect of each instruction
that it may run. -/
theorem step_keeps {Inv : State → Prop} {May : Instr → Prop} (hof : OfSession Inv)
    (heff : ∀ i s u, May i → Inv s → SessionEffect s i u → Inv u) {s t : State}
    (hmay : ∀ i rest, decodePort s.port = .instr i rest → May i) (hs : Inv s)
    (h : step s = .next t) : Inv t := by
  rcases step_eq_next.mp h with ⟨-, rfl⟩ | ⟨i, rest, hport, hexec⟩
  · exact hof (State.dropOutputs_session s) hs
  · obtain ⟨u, hu, hsession⟩ := exec_effect hexec
    exact hof hsession (heff i _ u (hmay i rest hport) (hof (State.taking_session s rest) hs) hu)

/-! ## The buffer's invariant -/

theorem ofSession_bufferOk : OfSession BufferOk := by
  intro s t h hs
  have hbuf : t.buf = s.buf := congrArg Session.buf h
  have hblen : t.blen = s.blen := congrArg Session.blen h
  exact ⟨hbuf ▸ hs.canonical, fun i hi => hbuf ▸ hs.zeroBeyond i (hblen ▸ hi)⟩

theorem Memory.getBit_nil (i : Nat) : Memory.getBit [] i = false := by
  simp [Memory.getBit, bitOfByte]

theorem bufferOk_reset : BufferOk State.reset := ⟨rfl, fun i _ => Memory.getBit_nil i⟩

/-- A written bit is below the new `BLEN` (R82). -/
theorem bufferOk_putBufBit {s : State} (hs : BufferOk s) (i : Nat) (v : Bit) :
    BufferOk (s.putBufBit i v) where
  canonical := Memory.setBit_wf i v hs.canonical
  zeroBeyond := by
    intro j hj
    rw [State.putBufBit_blen, Nat.max_le] at hj
    have hne : j ≠ i := by omega
    rw [State.putBufBit_buf, Memory.getBit_setBit i j v hs.canonical, if_neg hne]
    exact hs.zeroBeyond j hj.1

/-- A bit that a shift moves at or beyond `BLEN` comes from there (R83). -/
theorem bufferOk_shiftBufWindow {s : State} (hs : BufferOk s) (a n : Nat) :
    BufferOk (s.shiftBufWindow a n) where
  canonical := Memory.shiftWindow_wf a n hs.canonical
  zeroBeyond := by
    intro j hj
    rw [State.shiftBufWindow_blen] at hj
    rw [State.shiftBufWindow_buf, Memory.getBit_shiftWindow a n j hs.canonical,
      hs.zeroBeyond j hj, hs.zeroBeyond (j + n) (by omega), Bool.and_false, ite_self]

theorem bufferOk_storeBit {s : State} (hs : BufferOk s) (bit : Bit) : BufferOk (s.storeBit bit) :=
  ⟨(bufferOk_putBufBit hs s.bitIndex bit).canonical, (bufferOk_putBufBit hs s.bitIndex bit).zeroBeyond⟩

theorem bufferOk_slide {s : State} (hs : BufferOk s) : BufferOk s.slide :=
  have hshift := bufferOk_shiftBufWindow hs (windowOffset s.bitIndex) 1
  ⟨hshift.canonical, hshift.zeroBeyond⟩

theorem bufferOk_interpretWord {s : State} (hs : BufferOk s) (P : Params) (p c : Byte) :
    BufferOk (s.interpretWord P p c).1 := ⟨hs.canonical, hs.zeroBeyond⟩

/-- The fresh slot lies beyond the old `BLEN` (R119). -/
theorem bufferOk_acceptWord {s : State} (hs : BufferOk s) : BufferOk s.acceptWord :=
  ⟨hs.canonical, fun i hi => hs.zeroBeyond i (by rw [State.acceptWord_blen] at hi; omega)⟩

theorem bufferOk_of_effect {i : Instr} {s u : State} (hs : BufferOk s) (h : SessionEffect s i u) :
    BufferOk u := by
  cases h with
  | cleared => exact bufferOk_reset
  | stored bit => exact bufferOk_storeBit hs bit
  | slid bit => exact bufferOk_slide (bufferOk_storeBit hs bit)
  | accepted bit p c =>
    exact bufferOk_acceptWord (bufferOk_interpretWord (bufferOk_storeBit hs bit) _ p c)
  | bitSet j v => exact bufferOk_putBufBit hs j v
  | windowShifted a n => exact bufferOk_shiftBufWindow hs a n.toNat
  | position p c => exact bufferOk_interpretWord hs _ _ c
  | value v c => exact bufferOk_interpretWord hs _ _ c
  | kept => exact hs

/-- Settles O46: `bufferOk_of_effect` for every instruction. -/
theorem everyStepKeepsTheBufferInvariant : Obligations.EveryStepKeepsTheBufferInvariant :=
  fun _ _ => step_keeps (May := fun _ => True) ofSession_bufferOk
    (fun _ _ _ _ hs hu => bufferOk_of_effect hs hu) fun _ _ _ => trivial

/-! ## The context's part of the session's invariants -/

/-- (c) and (e) of R22, of an interpretation context. -/
structure ContextOk (ctx : Context) : Prop where
  /-- (c): a pending position is the base. -/
  pending : ∀ c, ctx.cur = some c → ctx.base = some c
  /-- (e): a stored byte is below `0x80`. -/
  content : ∀ p v, ctx.outAt p = some v → v.toNat < 0x80

theorem contextOk_fresh : ContextOk Context.fresh where
  pending := by simp
  content := by simp

/-- A valid value word's byte is below `0x80` since its kind bit is clear (R52). -/
theorem contextOk_record {ctx : Context} (h : ContextOk ctx) (q : Pos) {v : Byte}
    (hv : isPos v = false) (base : Option Pos) :
    ContextOk { ctx.record q v with cur := none, base := base } where
  pending := by simp
  content := by
    intro p w hw
    have hout : (ctx.record q v).outAt p = some w := hw
    rw [Context.record_outAt] at hout
    split at hout
    · rw [← Option.some.inj hout]
      exact (isPos_eq_false_iff v).mp hv
    · exact h.content p w hout

/-- Every word keeps (c) and (e) in every context, trusted and discarded words included. -/
theorem contextOk_interpret {ctx : Context} (h : ContextOk ctx) (P : Params) (p c : Byte) (len : Nat) :
    ContextOk (interpret P ctx p c len).1 := by
  rcases interpret_cases P ctx p c len with
    ⟨-, -, heq⟩ | ⟨-, -, -, heq⟩ | ⟨-, -, -, heq⟩ | ⟨-, hkind, q, -, heq⟩ | ⟨-, -, -, heq⟩
  · rw [heq]; exact h
  · rw [heq]; exact ⟨fun _ hcur => hcur, h.content⟩
  · rw [heq]; exact ⟨fun _ hcur => hcur, h.content⟩
  · rw [heq]; exact contextOk_record h q hkind _
  · rw [heq]; exact h

/-- (b), (c) and (e) of R22: what `SETBIT` and `SHIFTWIN` cannot break. -/
structure AttemptsContextOk (s : State) : Prop where
  /-- (b): an attempt is pending only one bit before a word's end. -/
  attempts : 0 < s.alignAttempts → s.bitIndex % 16 = 15
  /-- (c) and (e). -/
  context : ContextOk s.ctx

theorem ofSession_attemptsContextOk : OfSession AttemptsContextOk := by
  intro s t h hs
  have hcursor : t.bitIndex = s.bitIndex := congrArg Session.bitIndex h
  have hattempts : t.alignAttempts = s.alignAttempts := congrArg Session.alignAttempts h
  have hctx : t.ctx = s.ctx := congrArg Session.ctx h
  exact ⟨by rw [hcursor, hattempts]; exact hs.attempts, hctx ▸ hs.context⟩

theorem attemptsContextOk_of_effect {i : Instr} {s u : State} (hs : AttemptsContextOk s)
    (h : SessionEffect s i u) : AttemptsContextOk u := by
  cases h with
  | cleared => exact ⟨fun h => absurd h (Nat.lt_irrefl 0), contextOk_fresh⟩
  | stored bit gate =>
    refine ⟨fun hpos => ?_, hs.context⟩
    have hend : s.bitIndex % 16 = 15 := hs.attempts hpos
    omega
  | slid bit gate =>
    refine ⟨fun _ => ?_, hs.context⟩
    rw [State.slide_bitIndex, State.storeBit_bitIndex]
    omega
  | accepted bit p c =>
    exact ⟨fun h => absurd h (Nat.lt_irrefl 0), contextOk_interpret hs.context _ p c _⟩
  | bitSet => exact ⟨hs.attempts, hs.context⟩
  | windowShifted => exact ⟨hs.attempts, hs.context⟩
  | position p c => exact ⟨hs.attempts, contextOk_interpret hs.context _ _ c _⟩
  | value v c => exact ⟨hs.attempts, contextOk_interpret hs.context _ _ c _⟩
  | kept => exact hs

/-- Settles O48: `attemptsContextOk_of_effect` for every instruction. -/
theorem everyStepKeepsTheContextInvariant : Obligations.EveryStepKeepsTheContextInvariant := by
  intro s t hattempts hpending hcontent h
  have ht : AttemptsContextOk t :=
    step_keeps (May := fun _ => True) ofSession_attemptsContextOk
      (fun _ _ _ _ hs hu => attemptsContextOk_of_effect hs hu) (fun _ _ _ => trivial)
      ⟨hattempts, hpending, hcontent⟩ h
  exact ⟨ht.attempts, ht.context.pending, ht.context.content⟩

/-- Settles O22: of the five exits of the interpretation step two leave the context as it was, and three set
`CUR` and `BASE` alike. -/
theorem singleRegisterReading : Obligations.SingleRegisterReading := by
  intro P ctx p c len hkeep hsame
  rcases interpret_cases P ctx p c len with
    ⟨-, -, heq⟩ | ⟨-, -, -, heq⟩ | ⟨-, -, -, heq⟩ | ⟨-, -, q, -, heq⟩ | ⟨-, -, -, heq⟩
  · rw [heq]; exact hsame
  · rw [heq]
  · rw [heq]
  · rw [heq]; simp [hkeep]
  · rw [heq]; exact hsame

/-! ## The buffer's part of the session's invariants -/

/-- The first `n` words of a memory verify, as (f) of R22 has it. -/
def WordsVerify (m : Memory) (n : Nat) : Prop :=
  ∀ k, k < n → verify (Memory.read m (2 * k)) (Memory.read m (2 * k + 1)) = true

/-- (a) and (f) of R22: how far the buffer reaches, and what is below the window. -/
structure AcceptedOk (s : State) : Prop where
  /-- (a), first half. -/
  cursor_le : s.bitIndex ≤ s.blen
  /-- (a), second half. -/
  blen_le : s.blen ≤ 16 * (s.bitIndex / 16 + 1)
  /-- (f). -/
  accepted : WordsVerify s.buf (s.bitIndex / 16)

theorem sessionOk_iff {s : State} : SessionOk s ↔ AcceptedOk s ∧ AttemptsContextOk s :=
  ⟨fun h => ⟨⟨h.cursor_le, h.blen_le, h.accepted⟩, h.attempts, h.pending, h.content⟩,
    fun ⟨ha, hc⟩ => ⟨ha.cursor_le, ha.blen_le, hc.attempts, hc.context.pending, hc.context.content,
      ha.accepted⟩⟩

/-- Words stay verified when no byte below their end changes. -/
theorem WordsVerify.congr {m m' : Memory} {n : Nat} (h : WordsVerify m n)
    (hread : ∀ a, a < 2 * n → Memory.read m' a = Memory.read m a) : WordsVerify m' n := by
  intro k hk
  rw [hread _ (by omega), hread _ (by omega)]
  exact h k hk

/-- One more word that verifies. -/
theorem WordsVerify.succ {m : Memory} {n : Nat} (h : WordsVerify m n)
    (hlast : verify (Memory.read m (2 * n)) (Memory.read m (2 * n + 1)) = true) :
    WordsVerify m (n + 1) := by
  intro k hk
  rcases Nat.lt_succ_iff_lt_or_eq.mp hk with hlt | rfl
  · exact h k hlt
  · exact hlast

/-- The bit at the cursor lies in the window, above the accepted words. -/
theorem wordsVerify_storeBit {s : State} (hb : BufferOk s) (hs : AcceptedOk s) (bit : Bit) :
    WordsVerify (s.storeBit bit).buf (s.bitIndex / 16) :=
  hs.accepted.congr fun a ha => Memory.read_setBit_of_ne s.bitIndex a bit hb.canonical (by omega)

/-- The shift of a failed check moves the window's bytes alone. -/
theorem wordsVerify_slide {s : State} (hb : BufferOk s) (hs : AcceptedOk s) (bit : Bit)
    (gate : (s.bitIndex + 1) % 16 = 0) :
    WordsVerify (s.storeBit bit).slide.buf (s.bitIndex / 16) := by
  refine (wordsVerify_storeBit hb hs bit).congr fun a ha => ?_
  rw [State.slide_buf, State.storeBit_bitIndex, windowOffset_eq gate]
  exact Memory.read_shiftWindow_of_ne _ 1 a (bufferOk_storeBit hb bit).canonical (by omega) (by omega)

theorem acceptedOk_reset : AcceptedOk State.reset :=
  ⟨Nat.le_refl 0, Nat.zero_le _, fun k hk => absurd hk (Nat.not_lt_zero k)⟩

theorem acceptedOk_stored {s : State} (hb : BufferOk s) (hs : AcceptedOk s) (bit : Bit)
    (gate : (s.bitIndex + 1) % 16 ≠ 0) : AcceptedOk (s.storeBit bit) := by
  have hword : (s.bitIndex + 1) / 16 = s.bitIndex / 16 := by omega
  have hreach : s.blen ≤ 16 * (s.bitIndex / 16 + 1) := hs.blen_le
  constructor
  case cursor_le => exact Nat.le_max_right _ _
  case blen_le =>
    rw [State.storeBit_blen, State.storeBit_bitIndex, hword]
    omega
  case accepted =>
    rw [State.storeBit_bitIndex, hword]
    exact wordsVerify_storeBit hb hs bit

theorem acceptedOk_slid {s : State} (hb : BufferOk s) (hs : AcceptedOk s) (bit : Bit)
    (gate : (s.bitIndex + 1) % 16 = 0) : AcceptedOk (s.storeBit bit).slide := by
  have hcursor : (s.storeBit bit).slide.bitIndex = s.bitIndex := rfl
  have hblen : (s.storeBit bit).slide.blen = max s.blen (s.bitIndex + 1) := rfl
  have hreach : s.blen ≤ 16 * (s.bitIndex / 16 + 1) := hs.blen_le
  constructor
  case cursor_le => omega
  case blen_le => omega
  case accepted => exact wordsVerify_slide hb hs bit gate

/-- An accepted word ends at the cursor, and the fresh slot is the next word's (R119). -/
theorem acceptedOk_accepted {s : State} (hb : BufferOk s) (hs : AcceptedOk s) (bit : Bit) (p c : Byte)
    (gate : (s.bitIndex + 1) % 16 = 0)
    (hvalid : verify (Memory.read (s.storeBit bit).buf (2 * (s.bitIndex / 16)))
      (Memory.read (s.storeBit bit).buf (2 * (s.bitIndex / 16) + 1)) = true) :
    AcceptedOk ((s.storeBit bit).interpretWord Config.params p c).1.acceptWord := by
  have hword : (s.bitIndex + 1) / 16 = s.bitIndex / 16 + 1 := by omega
  have hreach : s.blen ≤ 16 * (s.bitIndex / 16 + 1) := hs.blen_le
  constructor
  case accepted =>
    simp only [State.acceptWord_bitIndex, State.interpretWord_bitIndex, State.storeBit_bitIndex, hword]
    exact (wordsVerify_storeBit hb hs bit).succ hvalid
  all_goals
    simp only [State.acceptWord_bitIndex, State.acceptWord_blen, State.interpretWord_bitIndex,
      State.interpretWord_blen, State.storeBit_bitIndex, State.storeBit_blen]
    omega

theorem acceptedOk_of_effect {i : Instr} {s u : State} (hleaves : leavesBuffer i = true)
    (hb : BufferOk s) (hs : AcceptedOk s) (h : SessionEffect s i u) : AcceptedOk u := by
  cases h with
  | cleared => exact acceptedOk_reset
  | stored bit gate => exact acceptedOk_stored hb hs bit gate
  | slid bit gate => exact acceptedOk_slid hb hs bit gate
  | accepted bit p c gate payload checksum valid =>
    exact acceptedOk_accepted hb hs bit p c gate (by rw [payload, checksum]; exact valid)
  | bitSet => cases hleaves
  | windowShifted => cases hleaves
  | position => exact ⟨hs.cursor_le, hs.blen_le, hs.accepted⟩
  | value => exact ⟨hs.cursor_le, hs.blen_le, hs.accepted⟩
  | kept => exact hs

theorem ofSession_acceptedOk : OfSession AcceptedOk := by
  intro s t h hs
  have hbuf : t.buf = s.buf := congrArg Session.buf h
  have hblen : t.blen = s.blen := congrArg Session.blen h
  have hcursor : t.bitIndex = s.bitIndex := congrArg Session.bitIndex h
  constructor
  case cursor_le => rw [hcursor, hblen]; exact hs.cursor_le
  case blen_le => rw [hcursor, hblen]; exact hs.blen_le
  case accepted => rw [hcursor, hbuf]; exact hs.accepted

/-- The two invariants together, which is what a step that leaves the buffer to the reassembler keeps: (f) needs
the canonical buffer. -/
def BufferSessionOk (s : State) : Prop := BufferOk s ∧ AcceptedOk s ∧ AttemptsContextOk s

theorem ofSession_bufferSessionOk : OfSession BufferSessionOk := fun _ _ h hs =>
  ⟨ofSession_bufferOk h hs.1, ofSession_acceptedOk h hs.2.1, ofSession_attemptsContextOk h hs.2.2⟩

theorem bufferSessionOk_of_effect {i : Instr} {s u : State} (hleaves : leavesBuffer i = true)
    (hs : BufferSessionOk s) (h : SessionEffect s i u) : BufferSessionOk u := by
  obtain ⟨hbuffer, haccepted, hcontext⟩ := hs
  exact ⟨bufferOk_of_effect hbuffer h, acceptedOk_of_effect hleaves hbuffer haccepted h,
    attemptsContextOk_of_effect hcontext h⟩

/-- Settles O47: `bufferSessionOk_of_effect` for every instruction that leaves the buffer. -/
theorem undisturbedStepsKeepTheSessionInvariant :
    Obligations.UndisturbedStepsKeepTheSessionInvariant := by
  intro s t hbuffer hsession hleaves h
  have ht : BufferSessionOk t :=
    step_keeps (May := fun i => leavesBuffer i = true) ofSession_bufferSessionOk
      (fun _ _ _ hi hs hu => bufferSessionOk_of_effect hi hs hu) hleaves
      ⟨hbuffer, sessionOk_iff.mp hsession⟩ h
  exact sessionOk_iff.mpr ht.2

/-! ## Reset -/

/-- Settles O44: an empty buffer and a fresh context. -/
theorem resetValues : Obligations.ResetValues :=
  ⟨rfl, rfl, fun p => Context.fresh_outAt p,
    (Context.maxRec_eq_none Context.fresh).mpr fun p => Context.fresh_outAt p,
    rfl, rfl, rfl, Memory.read_nil, fun _ => ⟨_, rfl, rfl⟩⟩

theorem attemptsContextOk_reset : AttemptsContextOk State.reset :=
  ⟨fun h => absurd h (Nat.lt_irrefl 0), contextOk_fresh⟩

/-- Settles O45: the two halves of `SessionOk` apart. -/
theorem invariantsHoldAtReset : Obligations.InvariantsHoldAtReset :=
  ⟨bufferOk_reset, sessionOk_iff.mpr ⟨acceptedOk_reset, attemptsContextOk_reset⟩⟩

/-! ## Steps and outputs -/

/-- Settles O54: `State.taking` and `State.dropOutputs` are the two updates of the statement. -/
theorem stepRunsTheDecodedInstruction : Obligations.StepRunsTheDecodedInstruction := by
  intro s
  refine ⟨fun i rest h => step_of_fetched h, fun h => ?_, fun h => ?_⟩
  · have hidle : decodePort s.port = .idle := by rw [h]; rfl
    exact step_eq_next.mpr (.inl ⟨.inl hidle, rfl⟩)
  · exact step_eq_next.mpr (.inl ⟨.inr h, rfl⟩)

/-- Every meaning reads the elements of the session and the port alone, so with other outputs before it it is
the same term. -/
theorem exec_withOutputs (i : Instr) (s : State) (r : Response) (es : List Event) :
    exec i { s with response := r, events := es } = exec i s := by
  cases i <;> rfl

/-- After a refusal some of the port's beats are taken, and nothing else is done (R138). -/
theorem afterRefusal_eq_taking (s : State) : ∃ rest, s.afterRefusal = s.taking rest := by
  unfold State.afterRefusal
  cases s.fetched with
  | instr i rest => exact ⟨rest, rfl⟩
  | bad w => exact ⟨s.port.tail, rfl⟩
  | stray b => exact ⟨s.port.tail, rfl⟩
  | idle => exact ⟨s.port, rfl⟩
  | waiting => exact ⟨s.port, rfl⟩

/-- Settles O56: a step and a refusal drop the outputs before they do anything else. -/
theorem outputsAreNotRead : Obligations.OutputsAreNotRead := by
  intro i s r es
  obtain ⟨rest, hrest⟩ := afterRefusal_eq_taking s
  refine ⟨exec_withOutputs i s r es, rfl, rfl, ?_⟩
  rw [hrest]
  exact ⟨State.taking_response s rest, State.taking_events s rest, State.taking_session s rest⟩

end Sys2Proof.Machine
end

section
/-! The frame of the commands that write none of the session's elements (R35, R106, R144), and what a finite
`BUF_CAP` changes: a test before the command, and nothing of its meaning (R37, R82, R115). -/

namespace Sys2Proof.Machine

/-! ## The commands that keep the session -/

/-- A command that writes no element keeps the whole session: of the effects only `kept` is one of its own. -/
theorem session_of_keepsSession {i : Instr} {s t : State} (hkeeps : keepsSession i = true)
    (h : exec i s = .next t) : t.session = s.session := by
  obtain ⟨u, heff, hsession⟩ := exec_effect h
  rw [hsession]
  cases heff with
  | kept => rfl
  | cleared | stored | slid | accepted | bitSet | windowShifted | position | value => cases hkeeps

/-- Settles O13: each of the ten commands is one of `keepsSession`, and no instruction writes the port. -/
theorem readOnlyCommandsKeepTheSession : Obligations.ReadOnlyCommandsKeepTheSession := by
  intro i s t hcommand h
  have hkeeps : keepsSession i = true := by
    rcases hcommand with rfl | rfl | rfl | ⟨_, rfl⟩ | ⟨_, rfl⟩ | ⟨_, rfl⟩ | ⟨_, _, rfl⟩ | ⟨_, rfl⟩ |
      ⟨_, rfl⟩ | ⟨_, rfl⟩ <;> rfl
  exact ⟨session_of_keepsSession hkeeps h, port_of_exec h⟩

/-! ## A finite capacity -/

/-- A finite limit fails exactly when it is exceeded. -/
theorem within_some_iff (k n : Nat) : within (some k) n = true ↔ ¬ k < n := by
  rw [Nat.not_lt]
  exact decide_eq_true_iff

/-- A command under a finite limit, with the refusal first. -/
theorem ite_within_some {α : Type} (k n : Nat) (x refusal : α) :
    (if within (some k) n then x else refusal) = if k < n then refusal else x := by
  simp only [within_some_iff, ite_not]

section Capacity
variable (P : Params) (cap : Option Nat) (s : State)

/-- The check of a window reads no capacity: the fresh slot is tested before the bit is stored (R115). -/
theorem checkWindow_withCapacity (bit : Bit) :
    s.checkWindow { P with bufCap := cap } bit = s.checkWindow P bit := rfl

/-- `FEED` under a capacity: one test that counts the fresh slot, then the unbounded meaning (R115). -/
theorem feedBit_withCapacity (bit : Bit) :
    s.feedBit { P with bufCap := cap } bit =
      if within cap (nbytes (max s.blen (s.bitIndex + 1) + 16)) then
        s.feedBit { P with bufCap := none } bit
      else .refused .full := by
  rw [State.feedBit, checkWindow_withCapacity]
  rfl

/-- `SETBIT` under a capacity: one test of the bit's byte, then the unbounded meaning (R82). -/
theorem writeBufBit_withCapacity (i : Nat) (v : Bit) :
    s.writeBufBit { P with bufCap := cap } i v =
      if within cap (i / 8 + 1) then s.writeBufBit { P with bufCap := none } i v
      else .refused .full := rfl

end Capacity

/-- Settles O60: the capacity of the parameters taken is `none`, so the unbounded meanings are those of
`exec`; the byte `i div 8` fits exactly when it is below the capacity. -/
theorem finiteCapacityRefuses : Obligations.FiniteCapacityRefuses := by
  intro cap s b i
  constructor
  · rw [feedBit_withCapacity, ite_within_some]
    rfl
  · rw [writeBufBit_withCapacity, ite_within_some]
    exact if_congr Nat.lt_succ_iff rfl rfl

end Sys2Proof.Machine
end

section
/-! The opcode table against the command decoder (R62 to R64). The table's rows stand at their opcodes, so the
one row that a word can match is found by its opcode field, `rowOf`; the decoder answers a command exactly when
that row matches, and the command carries its mnemonic, `decodeCmd_mnemonic`. -/

namespace Sys2Proof

/-! ## The row of a word -/

/-- The row that a command word matches: it can only be the one at the word's opcode. -/
def rowOf (w : Word32) : Option CmdRow :=
  cmdRows[(w.extractLsb' 28 4).toNat]?.filter fun r => r.matches w

/-- Every row fixes the whole opcode field, and stands in the table at the opcode that it fixes (R62). -/
theorem cmdRows_opcode : ∀ r ∈ cmdRows, r.mask.extractLsb' 28 4 = BitVec.allOnes 4 ∧
    cmdRows[(r.pattern.extractLsb' 28 4).toNat]? = some r := by decide

/-- A row that matches a word stands at the word's opcode. -/
theorem getElem?_of_matches {r : CmdRow} {w : Word32} (hr : r ∈ cmdRows) (h : r.matches w = true) :
    cmdRows[(w.extractLsb' 28 4).toNat]? = some r := by
  obtain ⟨hmask, hplace⟩ := cmdRows_opcode r hr
  have hmatch : w &&& r.mask = r.pattern := eq_of_beq h
  rwa [← hmatch, BitVec.extractLsb'_and, hmask, BitVec.and_allOnes] at hplace

theorem rowOf_eq_some {w : Word32} {r : CmdRow} :
    rowOf w = some r ↔ r ∈ cmdRows ∧ r.matches w = true := by
  rw [rowOf, Option.filter_eq_some_iff]
  exact ⟨fun ⟨hplace, h⟩ => ⟨List.mem_of_getElem? hplace, h⟩,
    fun ⟨hr, h⟩ => ⟨getElem?_of_matches hr h, h⟩⟩

theorem rowOf_eq_none {w : Word32} : rowOf w = none ↔ ∀ r ∈ cmdRows, r.matches w = false := by
  simp only [Option.eq_none_iff_forall_ne_some, ne_eq, rowOf_eq_some, not_and, Bool.not_eq_true]

/-! ## The row and the must-be-zero field -/

/-- The row of an opcode whose operand has `k` free bits at its low end, the bits above them being zero: the
form of every mask and pattern of R63. -/
def operandRow (mnemonic : String) (op k : Nat) : CmdRow :=
  ⟨mnemonic, BitVec.allOnes 32 <<< k, BitVec.ofNat 4 op ++ 0#28⟩

/-- The bits that such a row fixes: those from `k` on. -/
theorem getLsbD_highMask (k i : Nat) :
    (BitVec.allOnes 32 <<< k).getLsbD i = (decide (i < 32) && decide (k ≤ i)) := by
  rw [BitVec.getLsbD_shiftLeft, BitVec.getLsbD_allOnes]
  grind

/-- A word of the row's opcode matches the row exactly when the operand's bits above the free ones are zero. -/
theorem operandRow_matches {w : Word32} {op k n : Nat} {mnemonic : String} (hk : k + n = 28)
    (hop : (w.extractLsb' 28 4).toNat = op) :
    (operandRow mnemonic op k).matches w = true ↔ w.extractLsb' k n = 0#n := by
  rw [CmdRow.matches, beq_iff_eq]
  show w &&& BitVec.allOnes 32 <<< k = (BitVec.ofNat 4 op ++ 0#28 : Word32) ↔ _
  rw [← opcode_eq hop]
  constructor
  · intro h
    apply BitVec.eq_of_getLsbD_eq
    intro i hi
    have hbit := congrArg (BitVec.getLsbD · (k + i)) h
    have hlow : k + i < 28 := by omega
    have hword : k + i < 32 := by omega
    simpa only [BitVec.getLsbD_and, getLsbD_highMask, BitVec.getLsbD_append, BitVec.getLsbD_extractLsb',
      BitVec.getLsbD_zero, hi, hlow, hword, Nat.le_add_right, decide_true, Bool.and_true, Bool.true_and,
      if_true] using hbit
  · intro h
    apply BitVec.eq_of_getLsbD_eq
    intro i hi
    rw [BitVec.getLsbD_and, getLsbD_highMask, BitVec.getLsbD_append, BitVec.getLsbD_zero,
      BitVec.getLsbD_extractLsb']
    by_cases hlow : i < 28
    · by_cases hfree : i < k
      · simp [hlow, hfree]
      · have hbit := congrArg (BitVec.getLsbD · (i - k)) h
        have hin : i - k < n := by omega
        have hplace : k + (i - k) = i := by omega
        simpa only [BitVec.getLsbD_extractLsb', BitVec.getLsbD_zero, hlow, hfree, hi, hin, hplace,
          Nat.le_of_not_lt hfree, decide_true, Bool.and_true, Bool.true_and, if_true] using hbit
    · have hfield : i - 28 < 4 := by omega
      have hplace : 28 + (i - 28) = i := by omega
      have hfixed : k ≤ i := by omega
      simp only [hlow, hfixed, hi, hfield, hplace, decide_true, Bool.and_true, Bool.true_and, if_false]

/-- The row of a word of a known opcode is told by the must-be-zero field. -/
theorem rowOf_of_opcode {w : Word32} {op k n : Nat} {mnemonic : String} (hk : k + n = 28)
    (hop : (w.extractLsb' 28 4).toNat = op) (hrow : cmdRows[op]? = some (operandRow mnemonic op k)) :
    rowOf w = if w.extractLsb' k n = 0#n then some (operandRow mnemonic op k) else none := by
  rw [rowOf, hop, hrow, Option.filter_some]
  simp only [operandRow_matches hk hop]

/-! ## The row and the decoder -/

/-- A command behind its must-be-zero field is answered exactly when its row matches. -/
theorem mnemonic_of_whenZero {w : Word32} {op k n : Nat} {c : Cmd} (hk : k + n = 28)
    (hop : (w.extractLsb' 28 4).toNat = op) (hrow : cmdRows[op]? = some (operandRow c.mnemonic op k)) :
    (whenZero (w.extractLsb' k n) c).map Cmd.mnemonic = (rowOf w).map CmdRow.mnemonic := by
  rw [rowOf_of_opcode hk hop hrow]
  show (if w.extractLsb' k n = 0#n then some c else none).map _ = _
  split <;> rfl

/-- A command whose operand is free in all its bits: its row matches by the opcode alone. -/
theorem mnemonic_of_free_operand {w : Word32} {op : Nat} {c : Cmd}
    (hop : (w.extractLsb' 28 4).toNat = op) (hrow : cmdRows[op]? = some (operandRow c.mnemonic op 28)) :
    some c.mnemonic = (rowOf w).map CmdRow.mnemonic := by
  rw [rowOf_of_opcode (k := 28) (n := 0) rfl hop hrow, if_pos BitVec.of_length_zero]
  rfl

/-- An index field as wide as its room admits every value. -/
theorem indexField_whole {n : Nat} (room : BitVec n) (f : Nat → Cmd) :
    indexField room n f = some (f room.toNat) := indexField_eq_some.mpr ⟨room.isLt, rfl⟩

/-- An index field narrower than its room is followed by a must-be-zero field (R63). -/
theorem indexField_eq_whenZero {m : Nat} (x : BitVec m) (width n : Nat) (f : Nat → Cmd) :
    indexField (x.extractLsb' 0 (width + n)) width f =
      whenZero (x.extractLsb' width n) (f (x.extractLsb' 0 (width + n)).toNat) := by
  have hfield : (x.extractLsb' 0 (width + n)).toNat < 2 ^ width ↔ x.extractLsb' width n = 0 := by
    have hpart := field_field x 0 (width + n) width n (Nat.le_refl _)
    rw [Nat.zero_add] at hpart
    have hdiv : (x.extractLsb' 0 (width + n)).toNat / 2 ^ width < 2 ^ n :=
      Nat.div_lt_of_lt_mul (Nat.pow_add 2 width n ▸ BitVec.isLt _)
    rw [← hpart, ← BitVec.toNat_inj, BitVec.extractLsb'_toNat width n,
      Nat.shiftRight_eq_div_pow, Nat.mod_eq_of_lt hdiv]
    simp [Nat.div_eq_zero_iff]
  exact if_congr hfield rfl rfl

/-- The decoder answers a command exactly when a row matches, and the command has the row's mnemonic. The cases
are the opcodes, in the order of the table. -/
theorem decodeCmd_mnemonic (w : Word32) : (decodeCmd w).map Cmd.mnemonic = (rowOf w).map CmdRow.mnemonic := by
  unfold decodeCmd decodeCmdFor
  split
  case h_1 hop => exact mnemonic_of_whenZero rfl hop rfl -- `CLEAR`
  case h_2 hop => exact mnemonic_of_whenZero rfl hop rfl -- `FEED`
  case h_3 hop => exact mnemonic_of_whenZero rfl hop rfl -- `STATUS`
  case h_4 hop => exact mnemonic_of_whenZero rfl hop rfl -- `READMSG`
  case h_5 hop => exact mnemonic_of_whenZero rfl hop rfl -- `REV`
  case h_6 hop => exact mnemonic_of_whenZero rfl hop rfl -- `CSUM`
  case h_7 hop => exact mnemonic_of_whenZero rfl hop rfl -- `VERIFY`
  case h_8 hop => exact mnemonic_of_whenZero rfl hop rfl -- `CLASSIFY`
  case h_9 hop => -- `GETBIT`
    rw [show Config.params.cmdIdxBits.index = 27 from rfl, indexField_eq_whenZero w 27 1]
    exact mnemonic_of_whenZero rfl hop rfl
  case h_10 hop => -- `SETBIT`
    rw [show Config.params.cmdIdxBits.index = 27 from rfl, indexField_whole]
    exact mnemonic_of_free_operand hop rfl
  case h_11 hop => -- `SHIFTWIN`
    rw [show Config.params.cmdIdxBits.offset = 23 from rfl, indexField_whole]
    exact mnemonic_of_free_operand hop rfl
  case h_12 hop => exact mnemonic_of_whenZero rfl hop rfl -- `READBITS`
  case h_13 hop => exact mnemonic_of_whenZero rfl hop rfl -- `ENCODE`
  case h_14 hop => -- `DECODE`
    rw [show Config.params.cmdIdxBits.length = 28 from rfl, indexField_whole]
    exact mnemonic_of_free_operand hop rfl
  case h_15 => -- an unassigned opcode (R62)
    have hbeyond : cmdRows[(w.extractLsb' 28 4).toNat]? = none :=
      List.getElem?_eq_none (show 14 ≤ (w.extractLsb' 28 4).toNat by grind)
    rw [rowOf, hbeyond]
    rfl

/-- A word decodes to no command exactly when it matches no row (R64). -/
theorem decodeCmd_eq_none {w : Word32} : decodeCmd w = none ↔ ∀ r ∈ cmdRows, r.matches w = false := by
  rw [← rowOf_eq_none, ← Option.map_eq_none_iff (f := Cmd.mnemonic), decodeCmd_mnemonic,
    Option.map_eq_none_iff]

/-- Settles O52: both rows are `rowOf w`, and `decodeCmd_mnemonic` gives the mnemonic. -/
theorem commandRowsDoNotOverlap : Obligations.CommandRowsDoNotOverlap := by
  intro w
  constructor
  · intro r hr r' hr' h h'
    exact Option.some.inj ((rowOf_eq_some.mpr ⟨hr, h⟩).symm.trans (rowOf_eq_some.mpr ⟨hr', h'⟩))
  · intro c hc
    have hmnemonic := decodeCmd_mnemonic w
    rw [hc] at hmnemonic
    obtain ⟨r, hrow, hname⟩ := Option.map_eq_some_iff.mp hmnemonic.symm
    obtain ⟨hr, h⟩ := rowOf_eq_some.mp hrow
    exact ⟨r, hr, h, hname⟩

end Sys2Proof
end

section
/-! What the port makes of a word that is no command, and of an `ENCODE` whose data beats are still coming
(R64, R65); the words written out in the spec (R54, R60). -/

namespace Sys2Proof

/-- The port answers a bad word exactly when the command decoder answers no command: missing data beats are a
wait (R64, log 2). -/
theorem decodePort_eq_bad {w : Word32} {rest : List PortBeat} :
    decodePort (.cmd w :: rest) = .bad w ↔ decodeCmd w = none := by
  simp only [decodePort, decodePortFor, decodeCmd_eq]
  split
  case h_1 hw => simp [hw]
  case h_2 hw => simp [hw]
  case h_3 hw => split <;> simp [hw]
  case h_4 hw => split <;> simp [hw]

/-- Fewer beats than a command asks for are not taken. -/
theorem takeBeats_eq_none_of_lt {n : Nat} {beats : List PortBeat} (h : beats.length < n) :
    takeBeats n beats = none := by
  cases ht : takeBeats n beats with
  | none => rfl
  | some p =>
    obtain ⟨hlen, hbeats⟩ := takeBeats_eq_some ht
    rw [hbeats, List.length_append, List.length_map] at h
    omega

/-- An `ENCODE` with fewer beats after it than its length waits (R65, log 2). -/
theorem decodePort_encode_waiting {w : Word32} {len : Nat} {beats : List PortBeat}
    (hw : decodeCmd w = some (.encode len)) (h : beats.length < len) :
    decodePort (.cmd w :: beats) = .waiting := by
  rw [decodeCmd_eq] at hw
  simp [decodePort, decodePortFor, hw, takeBeats_eq_none_of_lt h]

/-- An `ENCODE` with at least its length of data beats takes that many (R65). -/
theorem decodePort_encode_instr {w : Word32} {len : Nat} {bs : List Byte}
    (hw : decodeCmd w = some (.encode len)) (h : len ≤ bs.length) :
    decodePort (.cmd w :: bs.map .data) = .instr (.encode (bs.take len)) ((bs.drop len).map .data) := by
  refine decodePortFor_eq_instr.mpr (.inr (.inl ⟨w, bs.take len, ?_, rfl, ?_⟩))
  · rw [← List.map_append, List.take_append_drop]
  · rwa [List.length_take_of_le h]

namespace Machine

/-- A bad word at the front of the port is refused, and the run goes on with the beats after it (R64, log 5). -/
theorem step_of_bad {s : State} {w : Word32} (h : decodePort s.port = .bad w) :
    step s = .refused .badCommand ∧ s.afterRefusal = s.taking s.port.tail := by
  simp [step, State.afterRefusal, State.fetched, h]

/-- `VERIFY` answers whether the checksum is that of the payload, and changes nothing (R72). -/
theorem exec_verify {p c : Byte} {b : Bit} (s : State) (h : verify p c = b) :
    exec (.verify p c) s = .next { s with response := .bit b, events := [] } := by
  rw [← h]
  rfl

/-- Settles O51: the table by `decodeCmd_eq_none`, the step by `step_of_bad`. -/
theorem badCommandExactlyWhenNoRowMatches : Obligations.BadCommandExactlyWhenNoRowMatches := by
  intro w rest s
  have hbad := (decodePort_eq_bad (rest := rest)).trans (decodeCmd_eq_none (w := w))
  refine ⟨hbad, fun hport hrows => ?_⟩
  have hfront : decodePort s.port = .bad w := by
    rw [hport]
    exact hbad.mpr hrows
  obtain ⟨hstep, hafter⟩ := step_of_bad hfront
  refine ⟨hstep, ?_⟩
  rw [hafter, hport]
  rfl

/-- Settles O55: the word of every length field decodes to it (`decodeCmdFor_encode_word`), and the beats after
it decide between waiting and running. -/
theorem encodeTakesItsDataBeats : Obligations.EncodeTakesItsDataBeats := by
  intro len bs s hport
  have hword : decodeCmd (0xC#4 ++ 0#19 ++ len) = some (.encode len.toNat) :=
    decodeCmdFor_encode_word Config.params len
  constructor
  · intro hfew
    have hwait := decodePort_encode_waiting (beats := bs.map .data) hword (by rwa [List.length_map])
    exact step_eq_next.mpr (.inl ⟨.inr (hport ▸ hwait), rfl⟩)
  · intro henough
    have hfront := decodePort_encode_instr hword henough
    exact step_of_fetched (hport ▸ hfront)

/-- Settles O7: the checksum that `VERIFY` accepts is `csum p`, by `verify_iff`. -/
theorem oneValidWordForEachPayload : Obligations.OneValidWordForEachPayload := by
  intro s
  refine ⟨fun p => ⟨csum p, exec_verify s (verify_csum p), fun d hd => exec_verify s ?_⟩,
    exec_verify s (by decide), exec_verify s (by decide), exec_verify s (by decide),
    exec_verify s (by decide)⟩
  rw [← Bool.not_eq_true, verify_iff]
  exact hd

/-- Settles O53: fixed words, by evaluating the decoders. -/
theorem specWordsDecode : Obligations.SpecWordsDecode := by
  unfold Obligations.SpecWordsDecode
  decide

end Machine

end Sys2Proof
end

section
/-! The bit utilities (R70 to R75): one rule for each command, then what its pure function does to the byte. -/

namespace Sys2Proof.Machine

/-! ## The commands -/

/-- `REV` answers the reversed byte, and changes nothing (R70). -/
theorem exec_rev (b : Byte) (s : State) :
    exec (.rev b) s = .next { s with response := .byte (rev b), events := [] } := rfl

/-- `CSUM` answers the checksum, and changes nothing (R71). -/
theorem exec_csum (b : Byte) (s : State) :
    exec (.csum b) s = .next { s with response := .byte (csum b), events := [] } := rfl

/-- `CLASSIFY` answers the kind and the position, and changes nothing (R73). -/
theorem exec_classify (p : Byte) (s : State) :
    exec (.classify p) s = .next { s with response := .kind (isPos p) (posOf p), events := [] } := rfl

/-! ## Reversal and checksum -/

/-- Complement and reversal commute (R71). -/
theorem csum_eq_not_rev (b : Byte) : csum b = ~~~rev b := by
  apply BitVec.eq_of_getLsbD_eq
  intro k hk
  rw [csum_getLsbD _ _ hk, BitVec.getLsbD_not, rev_getLsbD _ _ hk]
  simp [hk]

/-- The fixed points of reversal are the palindromic bytes (R70), found among all 256. -/
theorem rev_eq_self_iff (b : Byte) :
    rev b = b ↔ b ∈ [0x00#8, 0x18#8, 0x24#8, 0x3C#8, 0x42#8, 0x5A#8, 0x66#8, 0x7E#8, 0x81#8, 0x99#8,
      0xA5#8, 0xBD#8, 0xC3#8, 0xDB#8, 0xE7#8, 0xFF#8] := by
  revert b
  decide

/-- The bytes that are their own checksum (R71), found among all 256. -/
theorem csum_eq_self_iff (b : Byte) :
    csum b = b ↔ b ∈ [0x0F#8, 0x17#8, 0x2B#8, 0x33#8, 0x4D#8, 0x55#8, 0x69#8, 0x71#8, 0x8E#8, 0x96#8,
      0xAA#8, 0xB2#8, 0xCC#8, 0xD4#8, 0xE8#8, 0xF0#8] := by
  revert b
  decide

/-- `verify` compares bit by bit, against the complement of the mirrored payload bit (R72). -/
theorem verify_iff_bits (p c : Byte) :
    verify p c = true ↔ ∀ k, k < 8 → c.getLsbD k = !p.getLsbD (7 - k) := by
  rw [verify_iff]
  constructor
  · rintro rfl k hk
    exact csum_getLsbD p k hk
  · intro hbits
    apply BitVec.eq_of_getLsbD_eq
    intro k hk
    rw [hbits k hk, csum_getLsbD p k hk]

/-- A flipped bit changes the byte: bit `k` itself tells the two apart. -/
theorem ne_xor_bit (a : Byte) {k : Nat} (hk : k < 8) : a ≠ a ^^^ (1#8 <<< k) := by
  intro h
  have hbit : a.getLsbD k = (a ^^^ (1#8 <<< k)).getLsbD k := congrArg (·.getLsbD k) h
  simp [hk] at hbit

/-! ## The classifier -/

/-- A payload is a position exactly when it is `0x80` or more (R73). -/
theorem isPos_iff (p : Byte) : isPos p = true ↔ 0x80 ≤ p.toNat := by
  rw [← Bool.not_eq_false, isPos_eq_false_iff, Nat.not_lt]

/-- The position is the payload modulo 128, whatever the kind (R73). -/
theorem toNat_posOf (p : Byte) : (posOf p).toNat = p.toNat % 128 := by
  simp [posOf]

/-! ## The statements of the family -/

/-- Settles O6: `csum` is injective (`csum_inj`), and a flip makes a different byte (`ne_xor_bit`). -/
theorem checksumSeesEveryChange : Obligations.ChecksumSeesEveryChange := by
  intro a b s
  have hne : a ≠ b → csum a ≠ csum b := fun hab heq => hab (csum_inj heq)
  refine ⟨csum a, csum b, exec_csum a s, exec_csum b s, hne, ?_⟩
  rintro k hk rfl
  exact hne (ne_xor_bit a hk)

/-- Settles O1: bit by bit (`rev_getLsbD`), with the palindromes by `rev_eq_self_iff`. -/
theorem revReversesEveryBit : Obligations.RevReversesEveryBit := by
  intro b s rest
  exact ⟨decodePortFor_whole (decodeCmdFor_rev_word _ b) rest,
    rev b, rev_getLsbD b, exec_rev b s, rev_eq_self_iff b⟩

/-- Settles O2: `csum` is reversal and complement in either order (`csum_eq_not_rev`), and its own inverse
(`csum_csum`). -/
theorem csumIsReversedComplement : Obligations.CsumIsReversedComplement := by
  intro b s rest
  have hback : exec (.csum (csum b)) s = .next { s with response := .byte b, events := [] } := by
    rw [exec_csum, csum_csum]
  exact ⟨decodePortFor_whole (decodeCmdFor_csum_word _ b) rest,
    csum b, rev b, csum_getLsbD b, exec_csum b s, exec_rev b s, csum_eq_not_rev b, hback,
    csum_eq_self_iff b⟩

/-- Settles O3: the answer is `verify p c`, read bit by bit (`verify_iff_bits`). -/
theorem verifyAcceptsExactlyTheChecksum : Obligations.VerifyAcceptsExactlyTheChecksum := by
  intro p c s rest
  exact ⟨decodePortFor_whole (decodeCmdFor_verify_word _ p c) rest,
    verify p c, verify_iff_bits p c, exec_verify s rfl⟩

/-- Settles O4: the kind by `isPos_iff`, the position by `toNat_posOf`. -/
theorem classifySplitsThePayload : Obligations.ClassifySplitsThePayload := by
  intro p s rest
  exact ⟨decodePortFor_whole (decodeCmdFor_classify_word _ p) rest,
    isPos p, posOf p, isPos_iff p, toNat_posOf p, exec_classify p s⟩

/-- Settles O5: reversal is its own inverse (`rev_rev`), and the second `REV` overwrites the outputs of the
first. -/
theorem reversalIsSelfInverse : Obligations.ReversalIsSelfInverse := by
  intro b s
  refine ⟨rev b, _, exec_rev b s, rfl, ?_⟩
  rw [exec_rev, rev_rev]

end Sys2Proof.Machine
end

section
/-! The bit-addressable buffer (R80 to R85): one rule for each command, then the obligations, from the laws of
the memory (`Memory.getBit_setBit`, `Memory.getBit_shiftWindow`, `Memory.bits_getElem`). -/

namespace Sys2Proof.Machine

/-! ## The commands -/

/-- `SETBIT` writes the bit and extends `BLEN`; `BUF_CAP` is unbounded (R82, log 9). -/
theorem exec_setbit (i : Nat) (v : Bit) (s : State) :
    exec (.setbit i v) s = .next { s with
      buf := Memory.setBit s.buf i v, blen := max s.blen (i + 1), response := .empty, events := [] } := rfl

/-- `SHIFTWIN` on a window inside the buffer writes the buffer alone (R83). -/
theorem exec_shiftwin_of_le {a : Nat} {n : BitVec 5} {s : State} (h : a + 2 ≤ nbytes s.blen) :
    exec (.shiftwin a n) s = .next { s with
      buf := Memory.shiftWindow s.buf a n.toNat, response := .empty, events := [] } := execShiftwin_of_le h

/-- `READBITS` answers the bits of the buffer, and changes nothing (R84). -/
theorem exec_readbits (s : State) :
    exec .readbits s = .next { s with response := .bits (Memory.bits s.buf s.blen), events := [] } := rfl

/-! ## Windows and bit sequences -/

/-- The value of a shifted window: multiplied by `2^n`, the overflow lost (R83). -/
theorem Memory.toNat_read16_shiftWindow {m : Memory} (a n : Nat) (hm : Memory.wf m = true) :
    (Memory.read16 (Memory.shiftWindow m a n) a).toNat =
      (Memory.read16 m a).toNat * 2 ^ n % 65536 := by
  rw [Memory.read16_shiftWindow a n hm, BitVec.toNat_shiftLeft, Nat.shiftLeft_eq]

/-- The bits of one byte more are the bits of that byte, most significant first (R31). -/
theorem Memory.bits_add_byte (m : Memory) (n : Nat) :
    Memory.bits m (8 * n + 8) = Memory.bits m (8 * n) ++ byteBits (Memory.read m n) := by
  have hlast : ∀ j ∈ List.range 8, Memory.getBit m (8 * n + j) = bitOfByte (Memory.read m n) j := by
    intro j hj
    have hlt : j < 8 := List.mem_range.mp hj
    have hbyte : (8 * n + j) / 8 = n := by omega
    have hbit : (8 * n + j) % 8 = j := by omega
    rw [Memory.getBit, hbyte, hbit]
  rw [Memory.bits, List.range_add, List.map_append, List.map_map]
  exact congrArg (Memory.bits m (8 * n) ++ ·) (List.map_congr_left hlast)

/-- The bits of `n` bytes are `bitsOf` of the bytes read (R85). -/
theorem Memory.bits_eq_bitsOf (m : Memory) (n : Nat) :
    Memory.bits m (8 * n) = bitsOf ((List.range n).map (Memory.read m)) := by
  induction n with
  | zero => rfl
  | succ n ih =>
    rw [Nat.mul_succ, Memory.bits_add_byte, ih, List.range_succ, List.map_append, bitsOf_append,
      List.map_singleton, bitsOf_cons, bitsOf_nil, List.append_nil]

/-- A buffer whose first bytes are `bs`, read back as a list. -/
theorem Memory.map_read_eq {m : Memory} {bs : List Byte}
    (h : ∀ i (hi : i < bs.length), Memory.read m i = bs[i]) :
    (List.range bs.length).map (Memory.read m) = bs := by
  apply List.ext_getElem
  · simp
  · intro i _ hi
    rw [List.getElem_map, List.getElem_range]
    exact h i hi

/-! ## The statements of the family -/

/-- Settles O9: the bit by `Memory.getBit_setBit`, the other bytes by `Memory.read_setBit_of_ne`; a gap beyond
the old `BLEN` was zero before (`BufferOk`). -/
theorem setbitWritesOneBit : Obligations.SetbitWritesOneBit := by
  intro i v s rest
  refine ⟨fun hi => decodePortFor_whole (decodeCmdFor_setbit_word v hi hi) rest,
    _, exec_setbit i v s, rfl, fun hs => ?_⟩
  refine ⟨fun a ha => Memory.read_setBit_of_ne i a v hs.canonical ha,
    fun j => Memory.getBit_setBit i j v hs.canonical, fun j hj hne => ?_⟩
  show Memory.getBit (Memory.setBit s.buf i v) j = false
  rw [Memory.getBit_setBit i j v hs.canonical, if_neg hne]
  exact hs.zeroBeyond j hj

/-- Settles O10: the bits by `Memory.getBit_shiftWindow`, the value by `Memory.toNat_read16_shiftWindow`, the
other bytes by `Memory.read_shiftWindow_of_ne`. -/
theorem shiftwinMovesTheWindow : Obligations.ShiftwinMovesTheWindow := by
  intro a n s rest
  refine ⟨fun ha => decodePortFor_whole (decodeCmdFor_shiftwin_word n ha ha) rest,
    fun hinside => ⟨_, exec_shiftwin_of_le hinside, rfl, fun hwf => ⟨fun j => ?_,
      Memory.toNat_read16_shiftWindow a n.toNat hwf,
      fun k hk hk' => Memory.read_shiftWindow_of_ne a n.toNat k hwf hk hk'⟩⟩,
    execShiftwin_of_gt⟩
  rw [Bool.if_false_right]
  exact Memory.getBit_shiftWindow a n.toNat j hwf

/-- Settles O12: the bits of whole bytes are `bitsOf` of those bytes (`Memory.bits_eq_bitsOf`). -/
theorem readbitsGivesBitsOfBytes : Obligations.ReadbitsGivesBitsOfBytes := by
  intro bs s hlen hbytes
  rw [exec_readbits, hlen, Memory.bits_eq_bitsOf, Memory.map_read_eq hbytes]

/-- Settles O8: the two branches of `GETBIT` (`execGetbit_of_lt`, `execGetbit_of_ge`). -/
theorem getbitReadsOrRefuses : Obligations.GetbitReadsOrRefuses := by
  intro i s rest
  exact ⟨fun hi => decodePortFor_whole (decodeCmdFor_getbit_word hi (lt_room hi (by decide))) rest,
    execGetbit_of_lt, execGetbit_of_ge⟩

/-- Settles O11: `READBITS` answers `Memory.bits`, whose length and elements are known, and the second one reads
the same buffer. -/
theorem readbitsInIndexOrder : Obligations.ReadbitsInIndexOrder := by
  intro s rest
  have hlen : (Memory.bits s.buf s.blen).length = s.blen := Memory.bits_length s.buf s.blen
  refine ⟨decodePortFor_whole (decodeCmdFor_readbits Config.params 0) rest,
    _, exec_readbits s, hlen, fun i hi => ?_, exec_readbits _⟩
  have hlt : i < (Memory.bits s.buf s.blen).length := hlen.symm ▸ hi
  rw [List.getElem?_eq_getElem hlt, Memory.bits_getElem s.buf s.blen i hlt]
  rfl

end Sys2Proof.Machine
end

section
/-! The encoder (R90 to R92): one rule for each end of `ENCODE`, then which byte stands where in the frames. -/

namespace Sys2Proof.Machine

/-! ## The command -/

/-- `ENCODE` of at most `MAX_MSG` bytes answers the frames, and changes nothing (R90). -/
theorem exec_encode_of_le {msg : List Byte} (s : State) (h : msg.length ≤ Config.maxMsg) :
    exec (.encode msg) s = .next { s with response := .bytes (framesFrom 0 msg), events := [] } :=
  execEncode_of_le h

/-- `ENCODE` of more than `MAX_MSG` bytes answers the error, and changes nothing (R91). -/
theorem exec_encode_of_gt {msg : List Byte} (s : State) (h : Config.maxMsg < msg.length) :
    exec (.encode msg) s =
      .next { s with response := .error .messageTooLong msg.length, events := [] } :=
  execEncode_of_gt h

/-! ## The frames -/

/-- Every frame has four bytes, so byte `k` of the frame of message byte `i` stands at `4i + k` (R53). -/
theorem framesFrom_getElem? (j : Nat) {msg : List Byte} {i k : Nat} (hi : i < msg.length) (hk : k < 4) :
    (framesFrom j msg)[4 * i + k]? = (frame (j + i) msg[i])[k]? := by
  induction msg generalizing i j with
  | nil => exact absurd hi (Nat.not_lt_zero i)
  | cons v msg ih =>
    rw [framesFrom]
    cases i with
    | zero =>
      rw [Nat.mul_zero, Nat.zero_add]
      exact List.getElem?_append_left hk
    | succ i =>
      have hskip : 4 * (i + 1) + k - 4 = 4 * i + k := by omega
      have hpos : j + 1 + i = j + (i + 1) := by omega
      rw [List.getElem?_append_right (by rw [frame_length]; omega), frame_length, hskip,
        ih (j + 1) (Nat.lt_of_succ_lt_succ hi), hpos, List.getElem_cons_succ]

/-- The payload of position `i` is the byte `0x80 + i` (R51, R53). -/
theorem posPayload_ofNat {i : Nat} (hi : i < 128) :
    posPayload (BitVec.ofNat 7 i) = BitVec.ofNat 8 (0x80 + i) := by
  have hfits : 0x80 + i < 2 ^ 8 := by omega
  apply BitVec.eq_of_toNat_eq
  rw [posPayload, BitVec.toNat_append, ofNat_toNat_pos hi, ← Nat.shiftLeft_add_eq_or_of_lt hi,
    BitVec.toNat_ofNat (0x80 + i), Nat.mod_eq_of_lt hfits]
  rfl

/-! ## High bytes -/

/-- The position of a payload of `0x80` or more is what it exceeds `0x80` by (R56). -/
theorem posOf_eq_ofNat {b : Byte} (h : 0x80 ≤ b.toNat) : posOf b = BitVec.ofNat 7 (b.toNat - 0x80) := by
  have hlt : b.toNat < 2 ^ 8 := b.isLt
  apply BitVec.eq_of_toNat_eq
  rw [toNat_posOf, ofNat_toNat_pos (by omega)]
  omega

/-- A word whose payload has its top bit set is the position word of the payload's low seven bits (R51, R55). -/
theorem decodeWord_of_isPos {b : Byte} (h : isPos b = true) (c : Byte) :
    decodeWord (b ++ c) = .posw (posOf b) c := by
  rw [← decodeWord_posw (posOf b) c]
  exact congrArg (fun p : Byte => decodeWord (p ++ c)) (posPayload_posOf h).symm

/-! ## The statements of the family -/

/-- Settles O14: the bytes of a frame stand at `4i` on (`framesFrom_getElem?`), and its checksums are known bit
by bit (`csum_getLsbD`). -/
theorem encodeMakesFrames : Obligations.EncodeMakesFrames := by
  intro msg s hlen
  refine ⟨_, exec_encode_of_le s hlen, framesFrom_length 0 msg, fun i hi => ?_⟩
  have hframe : frame (0 + i) msg[i] = [BitVec.ofNat 8 (0x80 + i), csum (BitVec.ofNat 8 (0x80 + i)),
      msg[i], csum msg[i]] := by
    rw [Nat.zero_add, frame, posPayload_ofNat (Nat.lt_of_lt_of_le hi hlen)]
  have hbyte {k : Nat} (hk : k < 4) := hframe ▸ framesFrom_getElem? 0 hi hk
  exact ⟨_, _, hbyte (k := 0) (by decide), hbyte (k := 1) (by decide), hbyte (k := 2) (by decide),
    hbyte (k := 3) (by decide), csum_getLsbD _, csum_getLsbD _⟩

/-- Settles O16: the checksum after the byte is its own, and the kind of a word is its payload's top bit alone
(`decodeWord_of_isPos`). -/
theorem encoderPassesHighBytes : Obligations.EncoderPassesHighBytes := by
  intro msg s i hi hlen hhigh
  refine ⟨_, csum msg[i], exec_encode_of_le s hlen, framesFrom_getElem? 0 hi (k := 2) (by decide),
    framesFrom_getElem? 0 hi (k := 3) (by decide), ?_, exec_verify s (verify_csum _)⟩
  rw [decodeWord_of_isPos ((isPos_iff _).mpr hhigh), posOf_eq_ofNat hhigh]

/-- Settles O15: at most 128 bytes are answered with frames (`exec_encode_of_le`), so an error comes from the
other branch (`exec_encode_of_gt`). -/
theorem encodeTooLongIsTheOnlyError : Obligations.EncodeTooLongIsTheOnlyError := by
  intro msg s
  refine ⟨exec_encode_of_gt s, fun t c n ht herror => ?_⟩
  rcases Nat.lt_or_ge Config.maxMsg msg.length with hlong | hshort
  · rw [exec_encode_of_gt s hlong] at ht
    cases ht
    cases herror
    exact ⟨rfl, rfl, hlong⟩
  · rw [exec_encode_of_le s hshort] at ht
    cases ht
    cases herror

end Sys2Proof.Machine
end

section
/-! Wire words on the session's context (R97 to R102), the events of `DECODE` and its unread last byte (R104 to
R106), and the read-out `READMSG` (R107). -/

namespace Sys2Proof.Machine

/-! ## The commands -/

/-- `READMSG` answers the read-out of the session's assembly, and changes nothing (R107, R108). -/
theorem exec_readmsg (s : State) :
    exec .readmsg s =
      .next { s with response := .message (materialise Config.params s.ctx.out), events := [] } := rfl

/-- `DECODE` answers what the batch decoder computes from its input, and changes nothing (R104, R106). -/
theorem exec_decode (d : List Byte) (s : State) :
    exec (.decode d) s = .next { s with
      response := .message (decodeBatch Config.params d).1, events := (decodeBatch Config.params d).2 } := rfl

/-- A position word leaves the context and the events of its interpretation on the session's context, `L` being
the bytes up to the cursor (R95, R100, log 13). -/
theorem exec_posw {p : Pos} {c : Byte} {s : State} {ctx : Context} {es : List Event}
    (h : interpret Config.params s.ctx (posPayload p) c (s.bitIndex / 8) = (ctx, es)) :
    exec (.posw p c) s = .next { s with ctx := ctx, response := .empty, events := es } := by
  have hexec : exec (.posw p c) s = .next { s with
      ctx := (interpret Config.params s.ctx (posPayload p) c (s.bitIndex / 8)).1, response := .empty
      events := (interpret Config.params s.ctx (posPayload p) c (s.bitIndex / 8)).2 } := rfl
  rw [hexec, h]

/-- A value word leaves the context and the events of its interpretation, likewise (R95, log 13). -/
theorem exec_valw {v : Pos} {c : Byte} {s : State} {ctx : Context} {es : List Event}
    (h : interpret Config.params s.ctx (valPayload v) c (s.bitIndex / 8) = (ctx, es)) :
    exec (.valw v c) s = .next { s with ctx := ctx, response := .empty, events := es } := by
  have hexec : exec (.valw v c) s = .next { s with
      ctx := (interpret Config.params s.ctx (valPayload v) c (s.bitIndex / 8)).1, response := .empty
      events := (interpret Config.params s.ctx (valPayload v) c (s.bitIndex / 8)).2 } := rfl
  rw [hexec, h]

/-! ## Wire words -/

/-- Settles O17: the two ends of an accepted position word (`interpret_position`, `interpret_overflow`). -/
theorem poswSetsOrOverflows : Obligations.PoswSetsOrOverflows := by
  intro p c s hv
  have hword := posOf_posPayload p
  refine ⟨fun hwithin => exec_posw ?_, fun hbeyond => exec_posw ?_⟩
  · rw [interpret_position (.inl hv) (isPos_posPayload p) (by rwa [hword]), hword]
    rfl
  · rw [interpret_overflow (.inl hv) (isPos_posPayload p) (by rwa [hword])]
    rfl

/-- Settles O18: the two ends of a valid value word (`interpret_recorded`, `interpret_unsolicited`); `KEEP_BASE`
is 1, and `Context.record_outAt` says what `OUT` holds. -/
theorem valwRecordsOrIsDropped : Obligations.ValwRecordsOrIsDropped := by
  intro v c s hv
  have hkind := isPos_valPayload v
  refine ⟨fun q hq => ?_, fun hnone => exec_valw (interpret_unsolicited hv hkind hnone)⟩
  exact ⟨_, exec_valw (interpret_recorded hv hkind hq), rfl, fun p => Context.record_outAt s.ctx q _ p⟩

/-- Settles O20: both words take the exit of `interpret_discard`; a value word is never trusted, and a position
word only after its base. -/
theorem invalidWordsAreDiscarded : Obligations.InvalidWordsAreDiscarded := by
  intro v c s
  refine ⟨fun hv => ?_, fun hv hbase => ?_⟩
  · exact exec_valw (interpret_discard hv (trusted_of_value (isPos_valPayload v)))
  · refine exec_posw (interpret_discard hv (Bool.eq_false_iff.mpr fun htrust => ?_))
    obtain ⟨-, b, hb, hnext⟩ := trusted_iff.mp htrust
    rw [posOf_posPayload] at hnext
    exact hbase b hb hnext

/-- A trusted word is interpreted as the word with the right checksum, which only its event repeats (R97). -/
theorem interpret_of_trusted {P : Params} {ctx : Context} {p : Byte} (c : Byte) (len : Nat)
    (htrust : trusted ctx p = true) :
    (interpret P ctx p c len).1 = (interpret P ctx p (csum p) len).1 ∧
      (interpret P ctx p c len).2 ≠ [.diagnostic .checksumMismatch p c] := by
  obtain ⟨hp, -⟩ := trusted_iff.mp htrust
  by_cases hb : 4 * (posOf p).toNat ≤ len
  · rw [interpret_position (.inr htrust) hp hb, interpret_position (.inr htrust) hp hb]
    simp
  · have hb : len < 4 * (posOf p).toNat := Nat.lt_of_not_le hb
    rw [interpret_overflow (.inr htrust) hp hb, interpret_overflow (.inr htrust) hp hb]
    simp

/-- Settles O19: the trust test on natural numbers (`trusted_iff`) decides between `interpret_of_trusted` and
`interpret_discard`. -/
theorem trustIsSequentialOnly : Obligations.TrustIsSequentialOnly := by
  intro P ctx p c len hv
  refine ⟨fun b hb hp hnext => interpret_of_trusted c len (trusted_iff.mpr ?_), fun hno => ?_⟩
  · exact ⟨(isPos_iff p).mpr hp, b, hb, (toNat_posOf p).trans hnext⟩
  · refine interpret_discard hv (Bool.eq_false_iff.mpr fun htrust => ?_)
    obtain ⟨hp, b, hb, hnext⟩ := trusted_iff.mp htrust
    rw [toNat_posOf] at hnext
    rcases hno with hnot | hvalue
    · exact hnot b hb hnext
    · exact absurd ((isPos_iff p).mp hp) (Nat.not_le.mpr hvalue)

/-! ## The batch decoder -/

/-- An event that one word can have: a resolved field or a diagnostic (R96, R98). -/
def Event.IsOfWord (e : Event) : Prop :=
  (∃ k v p c, e = .fieldResolved k v p c) ∨ ∃ k p c, e = .diagnostic k p c

/-- Every word has exactly one event (R134). -/
theorem interpret_event (P : Params) (ctx : Context) (p c : Byte) (len : Nat) :
    ∃ e, (interpret P ctx p c len).2 = [e] ∧ e.IsOfWord := by
  rcases interpret_cases P ctx p c len with
    ⟨-, -, heq⟩ | ⟨-, -, -, heq⟩ | ⟨-, -, -, heq⟩ | ⟨-, -, q, -, heq⟩ | ⟨-, -, -, heq⟩
  · exact ⟨_, congrArg Prod.snd heq, .inr ⟨_, _, _, rfl⟩⟩
  · exact ⟨_, congrArg Prod.snd heq, .inl ⟨_, _, _, _, rfl⟩⟩
  · exact ⟨_, congrArg Prod.snd heq, .inr ⟨_, _, _, rfl⟩⟩
  · exact ⟨_, congrArg Prod.snd heq, .inl ⟨_, _, _, _, rfl⟩⟩
  · exact ⟨_, congrArg Prod.snd heq, .inr ⟨_, _, _, rfl⟩⟩

/-- Pairs have one event each (R104). -/
theorem interpretPairs_events (P : Params) (len : Nat) (ctx : Context) (d : List Byte) :
    (interpretPairs P len ctx d).2.length = d.length / 2 ∧
      ∀ e ∈ (interpretPairs P len ctx d).2, e.IsOfWord := by
  match d with
  | [] => simp
  | [b] => simp
  | p :: c :: rest =>
    obtain ⟨e, he, hword⟩ := interpret_event P ctx p c len
    obtain ⟨hlength, hall⟩ := interpretPairs_events P len (interpret P ctx p c len).1 rest
    rw [interpretPairs_cons, he]
    refine ⟨?_, ?_⟩
    · simp only [List.length_append, List.length_cons, List.length_nil, hlength]
      omega
    · rintro e' (_ | ⟨_, hmem⟩)
      · exact hword
      · exact hall e' hmem

/-- Settles O24: the events of the pairs (`interpretPairs_events`), then the message of `decodeBatch`. -/
theorem decodeReportsEachPairThenTheMessage : Obligations.DecodeReportsEachPairThenTheMessage := by
  intro d s
  obtain ⟨hlength, hall⟩ := interpretPairs_events Config.params d.length Context.fresh d
  exact ⟨_, _, exec_decode d s, hlength, hall⟩

/-- Settles O23: the response and the events are those of `decodeBatch`, which takes no state. -/
theorem decodeIsAFunctionOfItsInput : Obligations.DecodeIsAFunctionOfItsInput :=
  fun d => ⟨_, _, exec_decode d⟩

/-- A last byte without a partner is read by nothing (R105). -/
theorem interpretPairs_trailing (P : Params) (len : Nat) (ctx : Context) {d : List Byte}
    (h : d.length % 2 = 0) (b : Byte) : interpretPairs P len ctx (d ++ [b]) = interpretPairs P len ctx d := by
  rw [interpretPairs_append P len ctx d [b] h, interpretPairs_single, List.append_nil]

/-- Settles O25: the pairs of the input are those without its last byte (`interpretPairs_trailing`), whatever
that is, and its length is one more. -/
theorem decodeIgnoresATrailingByte : Obligations.DecodeIgnoresATrailingByte := by
  intro P d b heven
  refine ⟨?_, fun b' => ?_⟩
  · rw [decodeBatch, interpretPairs_trailing _ _ _ heven, List.length_append, List.length_singleton]
  · simp only [decodeBatch, interpretPairs_trailing _ _ _ heven, List.length_append, List.length_singleton]

/-! ## The read-out -/

/-- Settles O26: `READMSG` answers `materialise`, which ends at `MAXREC` (`Context.maxRec_eq_some`) and whose
symbols are those of `OUT` (`materialise_getElem`). -/
theorem readmsgMaterialisesTheAssembly : Obligations.ReadmsgMaterialisesTheAssembly := by
  intro s
  refine ⟨_, exec_readmsg s, (materialise_eq_nil _ s.ctx).mpr, fun p hp hmax => ?_⟩
  have hrec : s.ctx.maxRec = some p := (Context.maxRec_eq_some s.ctx p).mpr ⟨hp, hmax⟩
  have hlength : (materialise Config.params s.ctx.out).length = p.toNat + 1 := by
    rw [materialise_length, hrec]
    rfl
  refine ⟨hlength, fun q hq => ?_⟩
  have hlt : q.toNat < (materialise Config.params s.ctx.out).length := by omega
  rw [List.getElem?_eq_getElem hlt, materialise_getElem, BitVec.ofNat_toNat, BitVec.setWidth_eq]
  exact congrArg some Option.or_none

end Sys2Proof.Machine
end

section
/-! The batch decoder on encodings (R104, R109 to R111): what one frame does to a context, sound or with one of
its two checksums replaced, and what the decoder answers when a frame of an encoding is replaced. -/

namespace Sys2Proof.Machine

/-- The bytes that an `ENCODE` of at most `MAX_MSG` bytes answered are the frames of the message (R90). -/
theorem eq_framesFrom_of_response {msg out : List Byte} {s t : State} (hlen : msg.length ≤ Config.maxMsg)
    (ht : exec (.encode msg) s = .next t) (hout : t.response = .bytes out) : out = framesFrom 0 msg := by
  rw [exec_encode_of_le s hlen] at ht
  cases ht
  cases hout
  rfl

/-! ## What an assembly holds -/

/-- `OUT` holds exactly these symbols, from position 0 on, and nothing beyond them. -/
def Context.Holds (ctx : Context) (syms : List Sym) : Prop :=
  ∀ p : Pos, ctx.outAt p = syms[p.toNat]?.getD none

theorem holds_fresh : Context.fresh.Holds [] := fun p => by simp

/-- An unresolved symbol at the end is held by not recording anything. -/
theorem holds_append_none {ctx : Context} {syms : List Sym} :
    ctx.Holds (syms ++ [none]) ↔ ctx.Holds syms := by
  have hsame (i : Nat) : (syms ++ [none])[i]?.getD none = syms[i]?.getD none := by
    rcases Nat.lt_trichotomy i syms.length with hlt | rfl | hgt
    · rw [List.getElem?_append_left hlt]
    · simp
    · rw [List.getElem?_eq_none (by simp; omega), List.getElem?_eq_none (by omega)]
  simp only [Context.Holds, hsame]

/-- A byte recorded at the first position that is not held is the next symbol (R101). -/
theorem holds_record {ctx : Context} {syms : List Sym} (h : ctx.Holds syms) (hlen : syms.length < 128)
    (v : Byte) : (ctx.record (BitVec.ofNat 7 syms.length) v).Holds (syms ++ [some v]) := by
  intro p
  rw [Context.record_outAt, h p]
  by_cases hp : p = BitVec.ofNat 7 syms.length
  · rw [if_pos hp, hp, ofNat_toNat_pos hlen]
    simp
  · have hne : p.toNat ≠ syms.length := fun e =>
      hp (BitVec.eq_of_toNat_eq (by rw [ofNat_toNat_pos hlen, e]))
    rw [if_neg hp]
    rcases Nat.lt_or_gt_of_ne hne with hlt | hgt
    · rw [List.getElem?_append_left hlt]
    · rw [List.getElem?_eq_none (Nat.le_of_lt hgt), List.getElem?_eq_none (by simp; omega)]

/-- An assembly whose last symbol is resolved is read out as it stands (R107). -/
theorem materialise_of_holds (P : Params) {ctx : Context} {syms : List Sym} (h : ctx.Holds syms)
    (hlen : syms.length ≤ 128) (hlast : ∀ hne : syms ≠ [], syms.getLast hne ≠ none) :
    materialise P ctx.out = syms.map fun o => o.or P.repl := by
  refine materialise_eq_of_outAt P ctx syms hlen hlast (fun i hi => ?_) fun p hp => ?_
  · rw [h, ofNat_toNat_pos (by omega), List.getElem?_eq_getElem hi]
    rfl
  · rw [h, List.getElem?_eq_none hp]
    rfl

/-- Resolved bytes are read out as they are, whatever `REPL` is (R107). -/
theorem materialise_of_holds_bytes (P : Params) {ctx : Context} {msg : List Byte}
    (h : ctx.Holds (msg.map some)) (hlen : msg.length ≤ 128) :
    materialise P ctx.out = msg.map some := by
  rw [materialise_of_holds P h (by simpa using hlen) (by simp)]
  simp

/-- A symbol lost before others is unresolved in the message (R107). -/
theorem materialise_of_lost {ctx : Context} {pre post : List Byte} {v : Byte} (hpost : post ≠ [])
    (h : ctx.Holds (pre.map some ++ none :: post.map some)) (hlen : (pre ++ v :: post).length ≤ 128) :
    materialise Config.params ctx.out = pre.map some ++ none :: post.map some := by
  have hlast (hne : pre.map some ++ none :: post.map some ≠ []) :
      (pre.map some ++ none :: post.map some).getLast hne ≠ none := by
    simp [List.getLast_cons, hpost]
  have hrepl : (fun o : Sym => o.or Config.params.repl) = id := funext fun _ => Option.or_none
  rw [materialise_of_holds _ h (by simpa using hlen) hlast, hrepl, List.map_id]

/-- A symbol lost at the end is not in the message at all (R107). -/
theorem materialise_of_lost_last (P : Params) {ctx : Context} {pre : List Byte}
    (h : ctx.Holds (pre.map some ++ [none])) (hlen : pre.length ≤ 128) :
    materialise P ctx.out = pre.map some :=
  materialise_of_holds_bytes P (holds_append_none.mp h) hlen

/-! ## One frame -/

/-- The context after a byte is recorded at a position that was accepted (R99, R101). -/
def Context.resolve (P : Params) (ctx : Context) (p : Pos) (v : Byte) : Context :=
  { ctx.record p v with cur := none, base := if P.keepBase then some p else none }

/-- A frame with the checksum of its position word replaced (R53). -/
theorem frame_set_positionChecksum (i : Nat) (v c : Byte) :
    (frame i v).set 1 c = [posPayload (BitVec.ofNat 7 i), c, v, csum v] := rfl

/-- A frame with the checksum of its value word replaced (R53). -/
theorem frame_set_valueChecksum (i : Nat) (v c : Byte) :
    (frame i v).set 3 c = [posPayload (BitVec.ofNat 7 i), csum (posPayload (BitVec.ofNat 7 i)), v, c] := rfl

/-- With no base nothing is trusted (R97). -/
theorem trusted_of_base_none {ctx : Context} {p : Byte} (hbase : ctx.base = none) : trusted ctx p = false := by
  rw [trusted, hbase]

/-- A frame whose position word is accepted, by its checksum or by trust, and whose value word is valid: its
byte is recorded, and each word reports a field (R99, R101). -/
theorem interpretPairs_frame {P : Params} {ctx : Context} {p : Pos} {c v : Byte} {len : Nat}
    (hpos : verify (posPayload p) c = true ∨ trusted ctx (posPayload p) = true)
    (hbound : 4 * p.toNat ≤ len) (hv : isPos v = false) :
    interpretPairs P len ctx [posPayload p, c, v, csum v] =
      (ctx.resolve P p v,
        [.fieldResolved .position (posByte p) (posPayload p) c, .fieldResolved .character v v (csum v)]) := by
  rw [interpretPairs_cons, interpretPairs_cons,
    interpret_position hpos (isPos_posPayload p) (by rwa [posOf_posPayload]), posOf_posPayload,
    interpret_recorded (verify_csum v) hv rfl]
  rfl

/-- A frame whose value word has a wrong checksum records nothing (R98). -/
theorem interpretPairs_frame_valueLost {P : Params} {ctx : Context} {p : Pos} {v c : Byte} {len : Nat}
    (hbound : 4 * p.toNat ≤ len) (hv : isPos v = false) (hc : c ≠ csum v) :
    (interpretPairs P len ctx [posPayload p, csum (posPayload p), v, c]).1 =
      { ctx with cur := some p, base := some p } := by
  have hbad : verify v c = false := by simpa [verify] using hc
  rw [interpretPairs_cons, interpretPairs_cons, interpret_position (.inl (verify_csum _))
    (isPos_posPayload p) (by rwa [posOf_posPayload]), posOf_posPayload,
    interpret_discard hbad (trusted_of_value hv)]
  rfl

/-- A frame whose position word is discarded, with nothing pending, records nothing: its value word is
unsolicited (R98, R102). -/
theorem interpretPairs_frame_positionLost {P : Params} {ctx : Context} {p : Pos} {c v : Byte} {len : Nat}
    (hbad : verify (posPayload p) c = false) (htrust : trusted ctx (posPayload p) = false)
    (hcur : ctx.cur = none) (hv : isPos v = false) :
    (interpretPairs P len ctx [posPayload p, c, v, csum v]).1 = ctx := by
  rw [interpretPairs_cons, interpretPairs_cons, interpret_discard hbad htrust,
    interpret_unsolicited (verify_csum v) hv hcur]
  rfl

theorem holds_resolve (P : Params) {ctx : Context} {syms : List Sym} (h : ctx.Holds syms)
    (hlen : syms.length < 128) (v : Byte) :
    (ctx.resolve P (BitVec.ofNat 7 syms.length) v).Holds (syms ++ [some v]) := holds_record h hlen v

/-! ## The frames of a message -/

theorem framesFrom_append (i : Nat) (as bs : List Byte) :
    framesFrom i (as ++ bs) = framesFrom i as ++ framesFrom (i + as.length) bs := by
  induction as generalizing i with
  | nil => rfl
  | cons a as ih =>
    have hpos : i + 1 + as.length = i + (as.length + 1) := by omega
    rw [List.cons_append, framesFrom, framesFrom, ih, List.append_assoc, List.length_cons, hpos]

/-- The bytes of a message from position `i` on can be decoded from an input of `len` bytes: every position
exists and is within the sanity bound, and every byte is content (R100, R157). -/
structure Decodable (len i : Nat) (msg : List Byte) : Prop where
  positions : i + msg.length ≤ 128
  bound : 4 * (i + msg.length) ≤ len
  content : contentBytes msg = true

theorem decodable_encoding {msg : List Byte} (hlen : msg.length ≤ 128) (hmsg : contentBytes msg = true) :
    Decodable (4 * msg.length) 0 msg := ⟨by omega, by omega, hmsg⟩

theorem Decodable.append {len i : Nat} {as bs : List Byte} (h : Decodable len i (as ++ bs)) :
    Decodable len i as ∧ Decodable len (i + as.length) bs := by
  obtain ⟨hpositions, hbound, hcontent⟩ := h
  rw [List.length_append] at hpositions hbound
  rw [contentBytes, List.all_append, Bool.and_eq_true] at hcontent
  exact ⟨⟨by omega, by omega, hcontent.1⟩, ⟨by omega, by omega, hcontent.2⟩⟩

/-- What the first frame needs, and what is left for the others. -/
theorem Decodable.cons {len i : Nat} {v : Byte} {msg : List Byte} (h : Decodable len i (v :: msg)) :
    (BitVec.ofNat 7 i).toNat = i ∧ 4 * (BitVec.ofNat 7 i).toNat ≤ len ∧ isPos v = false ∧
      Decodable len (i + 1) msg := by
  obtain ⟨hpositions, hbound, hcontent⟩ := h
  rw [List.length_cons] at hpositions hbound
  rw [contentBytes, List.all_cons, Bool.and_eq_true, decide_eq_true_eq] at hcontent
  have hi : (BitVec.ofNat 7 i).toNat = i := ofNat_toNat_pos (by omega)
  exact ⟨hi, by omega, (isPos_eq_false_iff v).mpr hcontent.1, ⟨by omega, by omega, hcontent.2⟩⟩

/-- The frames of a message, one at a time: each resolves its byte, with two fields reported (R90, R104). -/
theorem interpretPairs_framesFrom_cons {P : Params} {len i : Nat} {v : Byte} {msg : List Byte} (ctx : Context)
    (h : Decodable len i (v :: msg)) :
    interpretPairs P len ctx (framesFrom i (v :: msg)) =
      ((interpretPairs P len (ctx.resolve P (BitVec.ofNat 7 i) v) (framesFrom (i + 1) msg)).1,
        [.fieldResolved .position (posByte (BitVec.ofNat 7 i)) (posPayload (BitVec.ofNat 7 i))
            (csum (posPayload (BitVec.ofNat 7 i))),
          .fieldResolved .character v v (csum v)] ++
        (interpretPairs P len (ctx.resolve P (BitVec.ofNat 7 i) v) (framesFrom (i + 1) msg)).2) := by
  obtain ⟨-, hbound, hv, -⟩ := h.cons
  rw [framesFrom, interpretPairs_append _ _ _ _ _ (by rw [frame_length]), frame,
    interpretPairs_frame (.inl (verify_csum _)) hbound hv]

/-- The frames of a message extend what is held by the message. -/
theorem holds_framesFrom {P : Params} {len : Nat} {ctx : Context} {syms : List Sym} {msg : List Byte}
    (hctx : ctx.Holds syms) (h : Decodable len syms.length msg) :
    (interpretPairs P len ctx (framesFrom syms.length msg)).1.Holds (syms ++ msg.map some) := by
  induction msg generalizing ctx syms with
  | nil => simpa [framesFrom] using hctx
  | cons v msg ih =>
    obtain ⟨-, -, -, hmsg⟩ := h.cons
    have hlen : syms.length < 128 := by
      have := h.positions
      simp only [List.length_cons] at this
      omega
    have hnext := ih (holds_resolve P hctx hlen v) (by simpa using hmsg)
    rw [interpretPairs_framesFrom_cons ctx h]
    simpa using hnext

theorem diagnostics_append (es fs : List Event) :
    diagnostics (es ++ fs) = diagnostics es ++ diagnostics fs := List.filter_append _ _

/-- The frames of a message meet no condition (R109). -/
theorem diagnostics_framesFrom {P : Params} {len i : Nat} {msg : List Byte} (ctx : Context)
    (h : Decodable len i msg) : diagnostics (interpretPairs P len ctx (framesFrom i msg)).2 = [] := by
  induction msg generalizing ctx i with
  | nil => rfl
  | cons v msg ih =>
    obtain ⟨-, -, -, hmsg⟩ := h.cons
    rw [interpretPairs_framesFrom_cons ctx h, diagnostics_append, ih _ hmsg]
    rfl

/-- After the frames of a message that is not empty the last byte has just been resolved. -/
theorem interpretPairs_framesFrom_concat {P : Params} {len i : Nat} {v : Byte} {msg : List Byte} (ctx : Context)
    (h : Decodable len i (msg ++ [v])) :
    (interpretPairs P len ctx (framesFrom i (msg ++ [v]))).1 =
      (interpretPairs P len ctx (framesFrom i msg)).1.resolve P (BitVec.ofNat 7 (i + msg.length)) v := by
  rw [framesFrom_append, interpretPairs_append _ _ _ _ _ (by rw [framesFrom_length]; omega),
    interpretPairs_framesFrom_cons _ h.append.2]
  rfl

/-- The context of `DECODE` after the first frames of an encoding (R17, R104). -/
def contextAfter (P : Params) (len : Nat) (pre : List Byte) : Context :=
  (interpretPairs P len Context.fresh (framesFrom 0 pre)).1

theorem holds_contextAfter {P : Params} {len : Nat} {pre : List Byte} (h : Decodable len 0 pre) :
    (contextAfter P len pre).Holds (pre.map some) := holds_framesFrom holds_fresh h

/-- Between frames no position is pending, and with `KEEP_BASE = 1` the base is the position of the last frame
(R15, R101). -/
theorem cur_base_contextAfter {P : Params} {len : Nat} {pre : List Byte} (h : Decodable len 0 pre) :
    (contextAfter P len pre).cur = none ∧
    (contextAfter P len pre).base =
      if P.keepBase = true ∧ pre ≠ [] then some (BitVec.ofNat 7 (pre.length - 1)) else none := by
  rcases List.eq_nil_or_concat pre with rfl | ⟨init, v, rfl⟩
  · exact ⟨rfl, by simp [contextAfter, framesFrom]⟩
  · rw [List.concat_eq_append] at h ⊢
    rw [contextAfter, interpretPairs_framesFrom_concat _ h]
    simp [Context.resolve]

/-! ## One byte of an encoding replaced -/

/-- A byte replaced in an encoding is a byte replaced in one frame. -/
theorem framesFrom_set (pre post : List Byte) (v c : Byte) {k : Nat} (hk : k < 4) :
    (framesFrom 0 (pre ++ v :: post)).set (4 * pre.length + k) c =
      framesFrom 0 pre ++ ((frame pre.length v).set k c ++ framesFrom (pre.length + 1) post) := by
  have hskip : 4 * pre.length + k - (framesFrom 0 pre).length = k := by rw [framesFrom_length]; omega
  rw [framesFrom_append, Nat.zero_add, framesFrom,
    List.set_append_right _ _ (by rw [framesFrom_length]; omega), hskip,
    List.set_append_left _ _ (by rw [frame_length]; exact hk)]

/-- The context with which `DECODE` of an input ends (R17, R104). -/
def decodeContext (P : Params) (input : List Byte) : Context :=
  (interpretPairs P input.length Context.fresh input).1

/-- `DECODE` answers the read-out of that context (R104). -/
theorem decodeBatch_message (P : Params) (input : List Byte) :
    (decodeBatch P input).1 = materialise P (decodeContext P input).out := rfl

/-- A list split at one of its elements. -/
theorem exists_split {α : Type} {l : List α} {i : Nat} (h : i < l.length) :
    ∃ pre v post, l = pre ++ v :: post ∧ pre.length = i :=
  ⟨l.take i, l[i], l.drop (i + 1), by simp, by simp; omega⟩

section ReplacedChecksum
variable {P : Params} {pre post : List Byte} {v c : Byte}

/-- What an encoding split at a byte needs of its three parts. -/
theorem Decodable.split {len : Nat} (h : Decodable len 0 (pre ++ v :: post)) :
    Decodable len 0 pre ∧ (BitVec.ofNat 7 pre.length).toNat = pre.length ∧
      4 * (BitVec.ofNat 7 pre.length).toNat ≤ len ∧ isPos v = false ∧
      Decodable len (pre.length + 1) post := by
  obtain ⟨hpre, hrest⟩ := h.append
  rw [Nat.zero_add] at hrest
  exact ⟨hpre, hrest.cons⟩

/-- When a frame with one byte replaced leaves the symbol `x`, the decoder ends holding the message with `x` in
that symbol's place: the later frames are not affected. -/
theorem holds_of_replaced_byte {x : Sym} {k : Nat} (hk : k < 4)
    (h : Decodable (4 * (pre ++ v :: post).length) 0 (pre ++ v :: post))
    (hframe : (interpretPairs P (4 * (pre ++ v :: post).length)
      (contextAfter P (4 * (pre ++ v :: post).length) pre) ((frame pre.length v).set k c)).1.Holds
        (pre.map some ++ [x])) :
    (decodeContext P ((framesFrom 0 (pre ++ v :: post)).set (4 * pre.length + k) c)).Holds
      (pre.map some ++ x :: post.map some) := by
  obtain ⟨-, -, -, -, hpost⟩ := h.split
  have hrest := holds_framesFrom (P := P) hframe (by simpa using hpost)
  rw [decodeContext, List.length_set, framesFrom_length, framesFrom_set pre post v c hk,
    interpretPairs_append _ _ _ _ _ (by rw [framesFrom_length]; omega),
    interpretPairs_append _ _ _ _ _ (by rw [List.length_set, frame_length])]
  simpa [contextAfter] using hrest

/-- The next position word after at least one frame is trusted when `KEEP_BASE = 1` (R97, D12). -/
theorem trusted_contextAfter {len : Nat} (hkeep : P.keepBase = true) (hne : pre ≠ [])
    (h : Decodable len 0 pre) (hpos : (BitVec.ofNat 7 pre.length).toNat = pre.length) :
    trusted (contextAfter P len pre) (posPayload (BitVec.ofNat 7 pre.length)) = true := by
  have hbase := (cur_base_contextAfter (P := P) h).2
  rw [if_pos ⟨hkeep, hne⟩] at hbase
  have hlength : 0 < pre.length := List.length_pos_iff.mpr hne
  have hlast : (BitVec.ofNat 7 (pre.length - 1)).toNat = pre.length - 1 :=
    ofNat_toNat_pos (by have := h.positions; omega)
  refine trusted_iff.mpr ⟨isPos_posPayload _, _, hbase, ?_⟩
  rw [posOf_posPayload, hpos, hlast]
  omega

/-- A trusted position word resolves its frame's byte whatever its checksum (R110). -/
theorem holds_of_trusted_position (hkeep : P.keepBase = true) (hne : pre ≠ [])
    (h : Decodable (4 * (pre ++ v :: post).length) 0 (pre ++ v :: post)) :
    (decodeContext P ((framesFrom 0 (pre ++ v :: post)).set (4 * pre.length + 1) c)).Holds
      ((pre ++ v :: post).map some) := by
  obtain ⟨hpre, hpos, hbound, hv, -⟩ := h.split
  have htrust := trusted_contextAfter hkeep hne hpre hpos
  have hlen : (pre.map some).length < 128 := by
    have := h.positions
    simp only [List.length_append, List.length_cons] at this
    simp only [List.length_map]
    omega
  rw [List.map_append, List.map_cons]
  refine holds_of_replaced_byte (by decide) h ?_
  rw [frame_set_positionChecksum, interpretPairs_frame (.inr htrust) hbound hv]
  simpa using holds_resolve P (holds_contextAfter hpre) hlen v

/-- Without a base to continue, a position word with a wrong checksum loses its frame's symbol (R110). -/
theorem holds_of_lost_position (hbase : P.keepBase = false ∨ pre = [])
    (h : Decodable (4 * (pre ++ v :: post).length) 0 (pre ++ v :: post))
    (hc : c ≠ csum (posPayload (BitVec.ofNat 7 pre.length))) :
    (decodeContext P ((framesFrom 0 (pre ++ v :: post)).set (4 * pre.length + 1) c)).Holds
      (pre.map some ++ none :: post.map some) := by
  obtain ⟨hpre, -, -, hv, -⟩ := h.split
  obtain ⟨hcur, hnone⟩ := cur_base_contextAfter (P := P) hpre
  have hno : ¬ (P.keepBase = true ∧ pre ≠ []) := by
    rcases hbase with hfalse | hnil
    · simp [hfalse]
    · simp [hnil]
  rw [if_neg hno] at hnone
  have hbad : verify (posPayload (BitVec.ofNat 7 pre.length)) c = false := by simpa [verify] using hc
  refine holds_of_replaced_byte (by decide) h ?_
  rw [frame_set_positionChecksum,
    interpretPairs_frame_positionLost hbad (trusted_of_base_none hnone) hcur hv]
  exact holds_append_none.mpr (holds_contextAfter hpre)

/-- A value word with a wrong checksum loses its frame's symbol (R111). -/
theorem holds_of_lost_value (h : Decodable (4 * (pre ++ v :: post).length) 0 (pre ++ v :: post))
    (hc : c ≠ csum v) :
    (decodeContext P ((framesFrom 0 (pre ++ v :: post)).set (4 * pre.length + 3) c)).Holds
      (pre.map some ++ none :: post.map some) := by
  obtain ⟨hpre, -, hbound, hv, -⟩ := h.split
  refine holds_of_replaced_byte (by decide) h ?_
  rw [frame_set_valueChecksum, interpretPairs_frame_valueLost hbound hv hc]
  exact holds_append_none.mpr (holds_contextAfter hpre)

end ReplacedChecksum

/-- A message with an unresolved symbol is not a message of bytes alone: the two differ at that symbol. -/
theorem materialise_ne_of_lost {P : Params} (hrepl : P.repl = none) {ctx : Context} {pre post : List Byte}
    {v : Byte} (hlen : pre.length < 128) (h : ctx.Holds (pre.map some ++ none :: post.map some)) :
    materialise P ctx.out ≠ (pre ++ v :: post).map some := by
  intro heq
  have hi : pre.length < (materialise P ctx.out).length := by rw [heq]; simp
  have hsome : (materialise P ctx.out)[pre.length] = some v := by simp [heq]
  have hnone : (materialise P ctx.out)[pre.length] = none := by
    rw [materialise_getElem, h, ofNat_toNat_pos hlen, hrepl]
    simp
  rw [hsome] at hnone
  cases hnone

/-! ## The statements -/

/-- The decoder on an encoding: every frame resolves its byte, and none meets a condition (R109). -/
theorem decodeBatch_framesFrom (P : Params) {msg : List Byte} (hlen : msg.length ≤ 128)
    (hmsg : contentBytes msg = true) :
    (decodeBatch P (framesFrom 0 msg)).1 = msg.map some ∧
      diagnostics (decodeBatch P (framesFrom 0 msg)).2 = [] := by
  have hdec := decodable_encoding hlen hmsg
  rw [decodeBatch, framesFrom_length]
  refine ⟨materialise_of_holds_bytes P (holds_contextAfter hdec) hlen, ?_⟩
  rw [diagnostics_append, diagnostics_framesFrom _ hdec]
  rfl

/-- Settles O27: `decodeBatch_framesFrom`, with the parameters taken and with any. -/
theorem decodeOfEncodeIsTheMessage : Obligations.DecodeOfEncodeIsTheMessage := by
  intro msg hlen hmsg
  refine ⟨fun s => ?_, fun P => decodeBatch_framesFrom P hlen hmsg⟩
  obtain ⟨hmessage, hquiet⟩ := decodeBatch_framesFrom Config.params hlen hmsg
  exact ⟨_, _, exec_encode_of_le s hlen, exec_decode _ s, congrArg Response.message hmessage, hquiet⟩

/-- Settles O28: a position word after the first is trusted (`holds_of_trusted_position`); the first one, and
every one with `KEEP_BASE = 0`, continues no base (`holds_of_lost_position`). -/
theorem corruptedPositionChecksumIsTolerated : Obligations.CorruptedPositionChecksumIsTolerated := by
  intro msg out s t c hlen hmsg ht hout
  obtain rfl := eq_framesFrom_of_response hlen ht hout
  refine ⟨fun i hi hlt => ?_, fun hne hc => ?_, fun i hi hlt hc => ?_⟩
  · obtain ⟨pre, v, post, rfl, rfl⟩ := exists_split hlt
    have hpre : pre ≠ [] := List.length_pos_iff.mp hi
    have hholds := holds_of_trusted_position (P := Config.params) (c := c) rfl hpre
      (decodable_encoding hlen hmsg)
    refine ⟨_, exec_decode _ s, congrArg Response.message ?_⟩
    exact materialise_of_holds_bytes _ hholds hlen
  · obtain ⟨v, post, rfl⟩ := List.exists_cons_of_ne_nil hne
    have hholds := holds_of_lost_position (P := Config.params) (pre := []) (.inr rfl)
      (decodable_encoding hlen hmsg) hc
    refine ⟨_, exec_decode _ s, congrArg Response.message ?_⟩
    cases post with
    | nil => exact materialise_of_lost_last _ hholds (Nat.zero_le _)
    | cons w post =>
      refine (materialise_of_lost (List.cons_ne_nil w post) hholds hlen).trans ?_
      simp
  · obtain ⟨pre, v, post, rfl, rfl⟩ := exists_split hlt
    rw [← posPayload_ofNat (Nat.lt_of_lt_of_le hlt hlen)] at hc
    exact materialise_ne_of_lost rfl (Nat.lt_of_lt_of_le hlt hlen)
      (holds_of_lost_position (.inl rfl) (decodable_encoding hlen hmsg) hc)

/-- Settles O29: the symbol is lost (`holds_of_lost_value`), and the message ends before it when no byte
follows. -/
theorem corruptedValueChecksumLosesOneSymbol : Obligations.CorruptedValueChecksumLosesOneSymbol := by
  intro msg out s t i hi c hlen hmsg ht hout hc
  obtain rfl := eq_framesFrom_of_response hlen ht hout
  obtain ⟨pre, v, post, rfl, rfl⟩ := exists_split hi
  have hc : c ≠ csum v := by simpa using hc
  have hholds := holds_of_lost_value (P := Config.params) (decodable_encoding hlen hmsg) hc
  refine ⟨_, exec_decode _ s, congrArg Response.message ?_⟩
  rw [decodeBatch_message]
  cases post with
  | nil =>
    rw [if_pos (by simp), materialise_of_lost_last _ hholds (by omega)]
    simp
  | cons w post =>
    rw [if_neg (by simp), materialise_of_lost (List.cons_ne_nil w post) hholds hlen]
    simp

end Sys2Proof.Machine
end

section
/-! Streaming and batch agree (R112): a stream of bits whose words all verify, with no position beyond the bound
that the stream sees, leaves the context that `DECODE` of the same bytes ends with; an encoding is such a
stream. -/

namespace Sys2Proof.Machine

/-! ## The bits of a byte sequence -/

/-- Bit `i` of a byte sequence is bit `i mod 8` of byte `i div 8` (R33, R85). -/
theorem bitsOf_getElem? {bs : List Byte} {a k : Nat} {b : Byte} (ha : bs[a]? = some b) (hk : k < 8) :
    (bitsOf bs)[8 * a + k]? = some (bitOfByte b k) := by
  induction bs generalizing a with
  | nil => cases ha
  | cons b' bs ih =>
    rw [bitsOf_cons]
    cases a with
    | zero =>
      obtain rfl : b' = b := by simpa using ha
      rw [List.getElem?_append_left (by rw [byteBits_length]; omega)]
      simp [byteBits, hk]
    | succ a =>
      have hskip : 8 * (a + 1) + k - 8 = 8 * a + k := by omega
      rw [List.getElem?_append_right (by rw [byteBits_length]; omega), byteBits_length, hskip]
      exact ih (by simpa using ha)

/-- A byte of the buffer whose eight bits are those of a byte of a sequence is that byte. -/
theorem Memory.read_eq_of_bitsOf {m : Memory} {bs : List Byte} {a : Nat} {b : Byte} (ha : bs[a]? = some b)
    (hbits : ∀ j, j < 8 * a + 8 → (bitsOf bs)[j]? = some (Memory.getBit m j)) : Memory.read m a = b := by
  apply BitVec.eq_of_getLsbD_eq
  intro k hk
  have hbit := (bitsOf_getElem? ha (show 7 - k < 8 by omega)).symm.trans (hbits _ (by omega))
  have hmirror : 7 - (7 - k) = k := by omega
  rw [Memory.read_getLsbD m a k hk, ← Option.some.inj hbit, bitOfByte, hmirror]

/-! ## Streams without a failed check -/

/-- The sanity bound is the only use that the interpretation step makes of `L`, so two lengths that a position
word is within both give the same result (R100). -/
theorem interpret_eq_of_bound (P : Params) (ctx : Context) {p : Byte} (c : Byte) {len len' : Nat}
    (h : isPos p = true → 4 * (posOf p).toNat ≤ len) (hle : len ≤ len') :
    interpret P ctx p c len = interpret P ctx p c len' := by
  cases hp : isPos p with
  | false => simp [interpret, hp]
  | true =>
    by_cases ha : verify p c = true ∨ trusted ctx p = true
    · rw [interpret_position ha hp (h hp), interpret_position ha hp (Nat.le_trans (h hp) hle)]
    · rw [not_or, Bool.not_eq_true, Bool.not_eq_true] at ha
      rw [interpret_discard ha.1 ha.2, interpret_discard ha.1 ha.2]

/-- Whole words that all verify, the position of word `k` being within the bound that the stream sees after it,
`L = 2 * (k + 1)` (R100 (b), R112). -/
structure Smooth (bs : List Byte) : Prop where
  even : bs.length % 2 = 0
  words : ∀ k, 2 * k < bs.length → ∃ p, bs[2 * k]? = some p ∧ bs[2 * k + 1]? = some (csum p) ∧
    (isPos p = true → 4 * (posOf p).toNat ≤ 2 * (k + 1))

/-- The state after the first `n` bits of a stream that meets no failed check: the other bits are still presented,
the buffer holds the bits fed, and the context is the one that `DECODE` has after the words completed. -/
structure StreamedTo (bs : List Byte) (n : Nat) (s : State) : Prop where
  port : s.port = feedBeats ((bitsOf bs).drop n)
  cursor : s.bitIndex = n
  attempts : s.alignAttempts = 0
  canonical : Memory.wf s.buf = true
  bits : ∀ j, j < n → (bitsOf bs)[j]? = some (Memory.getBit s.buf j)
  context : s.ctx = (interpretPairs Config.params bs.length Context.fresh (bs.take (2 * (n / 16)))).1

theorem streamedTo_start (bs : List Byte) :
    StreamedTo bs 0 (State.reset.presented (feedBeats (bitsOf bs))) where
  port := rfl
  cursor := rfl
  attempts := rfl
  canonical := rfl
  bits := fun j hj => absurd hj (Nat.not_lt_zero j)
  context := rfl

/-- A bit stored at the cursor is the next bit of the stream. -/
theorem StreamedTo.bits_storeBit {bs : List Byte} {n : Nat} {s : State} {b : Bit} (h : StreamedTo bs n s)
    (hb : (bitsOf bs)[n]? = some b) :
    ∀ j, j < n + 1 → (bitsOf bs)[j]? = some (Memory.getBit (Memory.setBit s.buf n b) j) := by
  intro j hj
  rw [Memory.getBit_setBit n j b h.canonical]
  by_cases heq : j = n
  · rw [if_pos heq, heq, hb]
  · rw [if_neg heq]
    exact h.bits j (by omega)

/-- The next bit of the stream, stored at the cursor and taken from the port: what is left to show of the state
after it is the context. -/
theorem StreamedTo.succ {bs : List Byte} {n : Nat} {s t : State} {b : Bit} (h : StreamedTo bs n s)
    (hb : (bitsOf bs)[n]? = some b) (hport : t.port = feedBeats ((bitsOf bs).drop (n + 1)))
    (hcursor : t.bitIndex = n + 1) (hattempts : t.alignAttempts = 0) (hbuf : t.buf = Memory.setBit s.buf n b)
    (hcontext : t.ctx =
      (interpretPairs Config.params bs.length Context.fresh (bs.take (2 * ((n + 1) / 16)))).1) :
    StreamedTo bs (n + 1) t where
  port := hport
  cursor := hcursor
  attempts := hattempts
  canonical := by rw [hbuf]; exact Memory.setBit_wf n b h.canonical
  bits := by rw [hbuf]; exact h.bits_storeBit hb
  context := hcontext

/-- Two bytes more of a list. -/
theorem take_two_more {l : List Byte} {k : Nat} {x y : Byte} (hx : l[2 * k]? = some x)
    (hy : l[2 * k + 1]? = some y) : l.take (2 * (k + 1)) = l.take (2 * k) ++ [x, y] := by
  rw [show 2 * (k + 1) = 2 * k + 1 + 1 from rfl, List.take_add_one, List.take_add_one, hx, hy]
  simp

/-- The `FEED` of the next bit, from the state whose port the step has taken: the last bit of a word completes a
word that verifies, and any other bit is only stored. -/
theorem streamedTo_feed {bs : List Byte} {n : Nat} {s : State} {b : Bit} (hbs : Smooth bs)
    (h : StreamedTo bs n s) (hb : (bitsOf bs)[n]? = some b) :
    ∃ t, execFeed b (s.taking (feedBeats ((bitsOf bs).drop (n + 1)))) = .next t ∧
      StreamedTo bs (n + 1) t := by
  obtain rfl := h.cursor
  by_cases hgate : (s.bitIndex + 1) % 16 = 0
  · have hlt : s.bitIndex < 8 * bs.length := by
      rw [← bitsOf_length]
      exact (List.getElem?_eq_some_iff.mp hb).1
    obtain ⟨p, hp, hc, hbound⟩ := hbs.words (s.bitIndex / 16) (by omega)
    have hread : ∀ a x, bs[a]? = some x → a ≤ 2 * (s.bitIndex / 16) + 1 →
        Memory.read (Memory.setBit s.buf s.bitIndex b) a = x := fun a x hx ha =>
      Memory.read_eq_of_bitsOf hx fun j hj => h.bits_storeBit hb j (by omega)
    have hwindow := windowOffset_eq hgate
    refine ⟨_, execFeed_accepted hgate (hwindow ▸ hread _ _ hp (by omega))
      (hwindow ▸ hread _ _ hc (by omega)) (verify_csum p), h.succ hb rfl rfl rfl rfl ?_⟩
    have hnext : (s.bitIndex + 1) / 16 = s.bitIndex / 16 + 1 := by omega
    have hlen : (s.bitIndex + 1) / 8 = 2 * (s.bitIndex / 16 + 1) := by omega
    have heven := hbs.even
    show (interpret Config.params s.ctx _ _ ((s.bitIndex + 1) / 8)).1 = _
    rw [hnext, take_two_more hp hc, interpretPairs_append _ _ _ _ _ (by simp; omega), ← h.context, hlen,
      interpret_eq_of_bound _ _ _ hbound (by omega : _ ≤ bs.length)]
    rfl
  · have hsame : (s.bitIndex + 1) / 16 = s.bitIndex / 16 := by omega
    exact ⟨_, execFeed_stored hgate, h.succ hb rfl rfl h.attempts rfl (by rw [hsame]; exact h.context)⟩

/-- One step of a stream. -/
theorem streamedTo_step {bs : List Byte} {n : Nat} {s : State} (hbs : Smooth bs) (h : StreamedTo bs n s)
    (hn : n < 8 * bs.length) : ∃ t, step s = .next t ∧ StreamedTo bs (n + 1) t := by
  have hn' : n < (bitsOf bs).length := by rwa [bitsOf_length]
  have hport : s.port = (encode (.feed (bitsOf bs)[n])).beats ++ feedBeats ((bitsOf bs).drop (n + 1)) := by
    rw [h.port, List.drop_eq_getElem_cons hn']
    rfl
  obtain ⟨t, ht, hstreamed⟩ := streamedTo_feed hbs h (List.getElem?_eq_getElem hn')
  refine ⟨t, ?_, hstreamed⟩
  rw [step_of_fetched (by rw [hport]; exact decodePort_feed _ _)]
  exact ht

/-- Every run of a stream from reset, as far as its bits go. -/
theorem run_streamedTo {bs : List Byte} (hbs : Smooth bs) {n : Nat} (hn : n ≤ 8 * bs.length) :
    ∃ t, run n (State.reset.presented (feedBeats (bitsOf bs))) = .next t ∧ StreamedTo bs n t := by
  induction n with
  | zero => exact ⟨_, run_zero _, streamedTo_start bs⟩
  | succ n ih =>
    obtain ⟨s, hrun, hs⟩ := ih (by omega)
    obtain ⟨t, hstep, ht⟩ := streamedTo_step hbs hs (by omega)
    refine ⟨t, ?_, ht⟩
    rw [run_add n 1 hrun, run_succ_of_next 0 hstep, run_zero]

/-- At the end of a stream the session's context is the one with which `DECODE` of its bytes ends (R112). -/
theorem ctx_of_streamedTo_end {bs : List Byte} (hbs : Smooth bs) {s : State}
    (h : StreamedTo bs (8 * bs.length) s) : s.ctx = decodeContext Config.params bs := by
  have heven := hbs.even
  rw [h.context, List.take_of_length_le (by omega)]
  rfl

/-! ## Encodings -/

/-- The words of an encoding: word `2i` is the position word of byte `i`, which the stream reaches when
`L = 4i + 2`, and word `2i + 1` is a value word (R53, R90). -/
theorem smooth_framesFrom {msg : List Byte} (hlen : msg.length ≤ 128) (hmsg : contentBytes msg = true) :
    Smooth (framesFrom 0 msg) where
  even := by rw [framesFrom_length]; omega
  words := by
    intro k hk
    rw [framesFrom_length] at hk
    rcases Nat.even_or_odd' k with ⟨i, rfl | rfl⟩
    · have hi : i < msg.length := by omega
      have hbyte : 2 * (2 * i) = 4 * i := by omega
      refine ⟨posPayload (BitVec.ofNat 7 i), ?_, ?_, fun _ => ?_⟩
      · simpa [hbyte, frame] using framesFrom_getElem? 0 hi (k := 0) (by decide)
      · simpa [hbyte, frame] using framesFrom_getElem? 0 hi (k := 1) (by decide)
      · rw [posOf_posPayload, ofNat_toNat_pos (by omega)]
        omega
    · have hi : i < msg.length := by omega
      have hbyte : 2 * (2 * i + 1) = 4 * i + 2 := by omega
      have hcontent := List.all_eq_true.mp hmsg msg[i] (List.getElem_mem hi)
      have hvalue : isPos msg[i] = false := (isPos_eq_false_iff _).mpr (of_decide_eq_true hcontent)
      refine ⟨msg[i], ?_, ?_, fun hpos => ?_⟩
      · simpa [hbyte, frame] using framesFrom_getElem? 0 hi (k := 2) (by decide)
      · simpa [hbyte, frame] using framesFrom_getElem? 0 hi (k := 3) (by decide)
      · rw [hvalue] at hpos
        cases hpos

/-- Settles O41: an encoding is a stream without a failed check (`smooth_framesFrom`, `run_streamedTo`), which
ends in the context of `DECODE` (`ctx_of_streamedTo_end`), whose message is known (O27). -/
theorem streamingEqualsBatch : Obligations.StreamingEqualsBatch := by
  intro msg out e hlen hmsg he hout
  obtain rfl := eq_framesFrom_of_response hlen he hout
  have hsmooth := smooth_framesFrom hlen hmsg
  have hbits : 32 * msg.length = 8 * (framesFrom 0 msg).length := by rw [framesFrom_length]; omega
  have hmessage := (decodeBatch_framesFrom Config.params hlen hmsg).1
  rw [hbits]
  refine ⟨fun n hn => ?_, ?_⟩
  · obtain ⟨u, hrun, hu⟩ := run_streamedTo hsmooth hn
    exact ⟨u, hrun, hu.attempts⟩
  · obtain ⟨t, hrun, ht⟩ := run_streamedTo hsmooth (Nat.le_refl _)
    refine ⟨t, _, hrun, ?_, exec_decode _ _, congrArg Response.message hmessage⟩
    rw [exec_readmsg, ctx_of_streamedTo_end hsmooth ht, ← decodeBatch_message, hmessage]

end Sys2Proof.Machine
end

section
/-! The commands of the streaming reassembler (R115 to R125): the three ends of `FEED`, `CLEAR` and `STATUS`, and
how the cursor moves. -/

namespace Sys2Proof.Machine

/-! ## `FEED` -/

/-- Settles O33: each of the three ends of `FEED` completes; a failed check takes the cursor back by one. -/
theorem feedAlwaysCompletes : Obligations.FeedAlwaysCompletes := by
  intro b s
  rcases execFeed_cases b s with ⟨-, h⟩ | ⟨p, c, -, -, -, -, h⟩ | ⟨p, c, -, -, -, -, h⟩
  · exact ⟨_, h, rfl, .inr rfl⟩
  · exact ⟨_, h, rfl, .inl rfl⟩
  · exact ⟨_, h, rfl, .inr rfl⟩

/-- Settles O30: the gate is closed (`execFeed_stored`), and the bit is written as `SETBIT` writes it. -/
theorem feedAwayFromAWordOnlyStores : Obligations.FeedAwayFromAWordOnlyStores := by
  intro b s hgate
  refine ⟨_, execFeed_stored hgate, rfl, fun hwf => ⟨fun j => ?_, fun a ha => ?_⟩⟩
  · exact Memory.getBit_setBit s.bitIndex j b hwf
  · exact Memory.read_setBit_of_ne s.bitIndex a b hwf ha

/-- A failed check shifts the window that the cursor stood in before the bit (R117, R118). -/
theorem slide_storeBit_buf {s : State} (b : Bit) (hgate : (s.bitIndex + 1) % 16 = 0) :
    (s.storeBit b).slide.buf =
      Memory.shiftWindow (Memory.setBit s.buf s.bitIndex b) (2 * (s.bitIndex / 16)) 1 := by
  rw [State.slide_buf, State.storeBit_buf, State.storeBit_bitIndex, windowOffset_eq hgate]

/-- Settles O31: the check fails (`execFeed_failed`), and the window is all that is shifted
(`slide_storeBit_buf`). -/
theorem feedSlidesOnAFailedCheck : Obligations.FeedSlidesOnAFailedCheck := by
  intro b s p c hgate hwf hp hc hv
  have hwindow := windowOffset_eq hgate
  have hbuf := slide_storeBit_buf b hgate
  have hstored := Memory.setBit_wf s.bitIndex b hwf
  refine ⟨_, execFeed_failed hgate (hwindow ▸ hp) (hwindow ▸ hc) hv, rfl, ?_, fun a ha ha' => ?_⟩
  · show Memory.read16 (s.storeBit b).slide.buf _ = _
    rw [hbuf, Memory.read16_shiftWindow _ 1 hstored, Memory.read16, hp, hc, wordOf]
  · show Memory.read (s.storeBit b).slide.buf a = _
    rw [hbuf, Memory.read_shiftWindow_of_ne _ 1 a hstored ha ha']
    exact Memory.read_setBit_of_ne s.bitIndex a b hwf (by omega)

/-- A word whose payload has its top bit clear is the value word of the payload's low seven bits (R52, R55). -/
theorem decodeWord_of_not_isPos {b : Byte} (h : isPos b = false) (c : Byte) :
    decodeWord (b ++ c) = .valw (posOf b) c := by
  rw [← decodeWord_valw (posOf b) c]
  exact congrArg (fun v : Byte => decodeWord (v ++ c)) (valPayload_posOf h).symm

/-- The instruction that a word decodes to is the interpretation of its two bytes, of either kind (R95). -/
theorem exec_decodeWord (p c : Byte) (s : State) :
    exec (decodeWord (wordOf p c)) s = s.runWord Config.params p c := by
  cases hp : isPos p with
  | true =>
    rw [wordOf, decodeWord_of_isPos hp]
    exact congrArg (s.runWord Config.params · c) (posPayload_posOf hp)
  | false =>
    rw [wordOf, decodeWord_of_not_isPos hp]
    exact congrArg (s.runWord Config.params · c) (valPayload_posOf hp)

/-- Settles O32: the check succeeds (`execFeed_accepted`), and what it interprets is what the window's instruction
runs (`exec_decodeWord`). -/
theorem feedRunsTheDecodedWord : Obligations.FeedRunsTheDecodedWord := by
  intro b s hgate hv
  have hwindow := windowOffset_eq hgate
  refine ⟨_, _, exec_decodeWord _ _ _, exec_readmsg _, ?_, rfl, rfl, rfl⟩
  exact execFeed_accepted hgate (congrArg _ hwindow) (congrArg (fun a => Memory.read _ (a + 1)) hwindow) hv

/-! ## `CLEAR` and `STATUS` -/

/-- Settles O36: `CLEAR` leaves the session of reset, whose assembly is fresh. -/
theorem clearStartsAFreshSession : Obligations.ClearStartsAFreshSession := by
  intro s rest
  exact ⟨decodePortFor_whole (decodeCmdFor_clear Config.params 0) rest,
    _, rfl, rfl, rfl, rfl, rfl, rfl, rfl, fun p => Context.fresh_outAt p, rfl, rfl, rfl⟩

/-- `STATUS` answers the status view, and changes nothing (R125). -/
theorem exec_status (s : State) :
    exec .status s = .next { s with response := .status s.statusView, events := [] } := rfl

/-- Settles O37: the last field of the view is `MAXREC` (`Context.maxRec_eq_none`, `Context.maxRec_eq_some`). -/
theorem statusReadsTheView : Obligations.StatusReadsTheView := by
  intro s rest
  exact ⟨decodePortFor_whole (decodeCmdFor_status Config.params 0) rest,
    s.ctx.maxRec, exec_status s, Context.maxRec_eq_none s.ctx, Context.maxRec_eq_some s.ctx⟩

/-! ## The cursor -/

/-- Settles O38: of the effects on the session only those of `FEED` and `CLEAR` have another cursor, and a failed
check, which takes it back, counts one attempt. -/
theorem cursorMovesInThreeWays : Obligations.CursorMovesInThreeWays := by
  intro i s t h
  obtain ⟨u, heff, hsession⟩ := exec_effect h
  have hcursor : t.bitIndex = u.bitIndex := congrArg Session.bitIndex hsession
  have hattempts : t.alignAttempts = u.alignAttempts := congrArg Session.alignAttempts hsession
  rw [hcursor, hattempts]
  refine ⟨?_, ?_, fun hfeed hclear => ?_⟩
  · rintro bit rfl
    cases heff with
    | stored | accepted => exact .inl rfl
    | slid => exact .inr ⟨rfl, rfl⟩
    | kept hkeeps => cases hkeeps
  · rintro rfl
    cases heff with
    | cleared => rfl
    | kept hkeeps => cases hkeeps
  · cases heff with
    | cleared => exact absurd rfl hclear
    | stored bit | slid bit | accepted bit => exact absurd rfl (hfeed bit)
    | bitSet | windowShifted | position | value | kept => rfl

end Sys2Proof.Machine
end

section
/-! `FEED` as a shift register (R122): the registers of a state follow it through every
`FEED`, because the bit stored at the cursor is the bit shifted into `SR`, seen through the window. -/

namespace Sys2Proof.Machine

/-! ## The registers -/

/-- `SR` with one more bit entering from the right, the oldest lost (R122). -/
def shiftIn (sr : Word16) (bit : Bit) : Word16 := (sr <<< 1) ||| (BitVec.ofBool bit).zeroExtend 16

/-- The bits after a shift: the new one at 0, every other one place up. -/
theorem shiftIn_getLsbD (sr : Word16) (bit : Bit) (k : Nat) :
    (shiftIn sr bit).getLsbD k = if k = 0 then bit else decide (k < 16) && sr.getLsbD (k - 1) := by
  cases k with
  | zero => simp [shiftIn]
  | succ k => simp [shiftIn]

section Feed
variable {r : ShiftReg} {bit : Bit}

/-- The registers away from a word's end (R116, R122). -/
theorem ShiftReg.feed_stored (hfill : r.fill ≠ 15) :
    r.feed Config.params bit =
      (⟨shiftIn r.sr bit, r.fill + 1, r.accepted, r.alignAttempts, r.ctx⟩, [.bitObserved bit]) := by
  have hgate : ¬ r.fill + 1 = Config.wordBits := fun h => hfill (Nat.succ.inj h)
  rw [ShiftReg.feed, if_neg hgate, shiftIn]

/-- The registers after a failed check (R118, R122). -/
theorem ShiftReg.feed_failed (hfill : r.fill = 15)
    (hv : verify (hiByte (shiftIn r.sr bit)) (loByte (shiftIn r.sr bit)) = false) :
    r.feed Config.params bit =
      (⟨shiftIn r.sr bit, 15, r.accepted, r.alignAttempts + 1, r.ctx⟩,
        [.bitObserved bit,
          .diagnostic .checksumMismatch (hiByte (shiftIn r.sr bit)) (loByte (shiftIn r.sr bit))]) := by
  have hgate : r.fill + 1 = Config.wordBits := by rw [hfill]
  have hbad : ¬ verify (hiByte (shiftIn r.sr bit)) (loByte (shiftIn r.sr bit)) = true := by simp [hv]
  rw [ShiftReg.feed, if_pos hgate]
  exact if_neg hbad

/-- The registers after an accepted word (R119, R122). -/
theorem ShiftReg.feed_accepted {ctx : Context} {es : List Event} (hfill : r.fill = 15)
    (hv : verify (hiByte (shiftIn r.sr bit)) (loByte (shiftIn r.sr bit)) = true)
    (hword : interpret Config.params r.ctx (hiByte (shiftIn r.sr bit)) (loByte (shiftIn r.sr bit))
      (2 * (r.accepted + 1)) = (ctx, es)) :
    r.feed Config.params bit =
      (⟨shiftIn r.sr bit, 0, r.accepted + 1, 0, ctx⟩,
        .bitObserved bit :: es ++ [.messageUpdated (materialise Config.params ctx.out)]) := by
  have hgate : r.fill + 1 = Config.wordBits := by rw [hfill]
  rw [ShiftReg.feed, if_pos hgate]
  refine (if_pos hv).trans ?_
  rw [shiftIn] at hword
  simp only [hword]
  rfl
end Feed

/-! ## One `FEED` -/

/-- The bit stored at the cursor is the bit shifted into `SR`, seen through the window (R117, R122). -/
theorem read16_setBit_window {m : Memory} {sr : Word16} {word fill : Nat} (bit : Bit) (hm : Memory.wf m = true)
    (hfill : fill < 16) (hwindow : Memory.read16 m (2 * word) = sr <<< (16 - fill)) :
    Memory.read16 (Memory.setBit m (16 * word + fill) bit) (2 * word) = shiftIn sr bit <<< (16 - (fill + 1)) := by
  rw [Nat.sub_add_eq, Nat.sub_right_comm]
  apply BitVec.eq_of_getLsbD_eq
  intro k hk
  have hbefore := congrArg (BitVec.getLsbD · k) hwindow
  simp only [Memory.read16_getLsbD _ _ _ hk, BitVec.getLsbD_shiftLeft, hk, decide_true, Bool.true_and] at hbefore
  rw [Memory.read16_getLsbD _ _ _ hk, Memory.getBit_setBit _ _ _ hm, hbefore, BitVec.getLsbD_shiftLeft,
    shiftIn_getLsbD]
  by_cases hplace : 8 * (2 * word) + (15 - k) = 16 * word + fill
  · have hnew : k - (15 - fill) = 0 ∧ ¬ k < 15 - fill := by omega
    simp [hplace, hnew, hk]
  · have hshift : k - (15 - fill) - 1 = k - (16 - fill) := by omega
    have hold : k < 15 - fill ∨ ¬ k < 15 - fill ∧ ¬ k < 16 - fill ∧ k - (15 - fill) ≠ 0 := by omega
    grind

/-- Beyond `BLEN` a window is zero (R11). -/
theorem read16_eq_zero {s : State} (hs : BufferOk s) {a : Nat} (ha : s.blen ≤ 8 * a) :
    Memory.read16 s.buf a = 0#16 := by
  apply BitVec.eq_of_getLsbD_eq
  intro k hk
  rw [Memory.read16_getLsbD _ _ _ hk, hs.zeroBeyond _ (by omega), BitVec.getLsbD_zero]

/-- From a state and its registers `FEED` completes, and `FEED` in shift-register form leads to the registers of
the state after it, with the same events (R122). -/
def ShiftReg.FeedsWith (r : ShiftReg) (s : State) (bit : Bit) : Prop :=
  ∃ t, exec (.feed bit) s = .next t ∧ (r.feed Config.params bit).1.Represents t ∧
    t.events = (r.feed Config.params bit).2

section Represents
variable {r : ShiftReg} {s : State}

/-- `A` and `n` are the quotient and the remainder of the cursor (R122). -/
theorem ShiftReg.Represents.div_mod (h : r.Represents s) :
    s.bitIndex / 16 = r.accepted ∧ s.bitIndex % 16 = r.fill := by
  have hfill : r.fill < 16 := h.fill_lt
  have hcursor : s.bitIndex = 16 * r.accepted + r.fill := h.cursor
  omega

/-- The relation with the window's offset written out. -/
theorem ShiftReg.Represents.of_window (hfill : r.fill < 16) (hcursor : s.bitIndex = 16 * r.accepted + r.fill)
    (hwindow : Memory.read16 s.buf (2 * r.accepted) = r.sr <<< (16 - r.fill))
    (hattempts : s.alignAttempts = r.alignAttempts) (hctx : s.ctx = r.ctx) : r.Represents s where
  fill_lt := hfill
  cursor := hcursor
  window := by
    have hword : s.bitIndex / Config.wordBits = r.accepted := by
      show s.bitIndex / 16 = r.accepted
      omega
    rw [State.woff, hword]
    exact hwindow
  attempts := hattempts
  context := hctx

/-- The window after the bit is stored is `SR` after it is shifted in, left-aligned (R117, R122). -/
theorem ShiftReg.Represents.window_storeBit (h : r.Represents s) (hs : BufferOk s) (bit : Bit) :
    Memory.read16 (Memory.setBit s.buf s.bitIndex bit) (2 * r.accepted) =
      shiftIn r.sr bit <<< (16 - (r.fill + 1)) := by
  have hwindow : Memory.read16 s.buf (2 * (s.bitIndex / 16)) = r.sr <<< (16 - r.fill) := h.window
  rw [h.div_mod.1] at hwindow
  have hcursor : s.bitIndex = 16 * r.accepted + r.fill := h.cursor
  rw [hcursor]
  exact read16_setBit_window bit hs.canonical h.fill_lt hwindow

/-- When a word is complete the window is `SR` itself (R117, R122). -/
theorem ShiftReg.Represents.window_complete (h : r.Represents s) (hs : BufferOk s) (bit : Bit)
    (hfill : r.fill = 15) :
    Memory.read16 (Memory.setBit s.buf s.bitIndex bit) (2 * r.accepted) = shiftIn r.sr bit := by
  have hwindow := h.window_storeBit hs bit
  rwa [hfill, Nat.sub_self, BitVec.shiftLeft_zero] at hwindow

/-- The two bytes that a check reads are those of `SR` (R117, R122). -/
theorem ShiftReg.Represents.checked_bytes (h : r.Represents s) (hs : BufferOk s) (bit : Bit)
    (hfill : r.fill = 15) :
    (s.bitIndex + 1) % 16 = 0 ∧
    Memory.read (s.storeBit bit).buf (windowOffset (s.bitIndex + 1)) = hiByte (shiftIn r.sr bit) ∧
    Memory.read (s.storeBit bit).buf (windowOffset (s.bitIndex + 1) + 1) = loByte (shiftIn r.sr bit) := by
  obtain ⟨hdiv, hmod⟩ := h.div_mod
  have hgate : (s.bitIndex + 1) % 16 = 0 := by omega
  rw [windowOffset_eq hgate, hdiv, ← h.window_complete hs bit hfill, Memory.read16, hiByte_wordOf, loByte_wordOf]
  exact ⟨hgate, rfl, rfl⟩

/-- Away from a word's end the registers still represent the state (R116). -/
theorem ShiftReg.Represents.feed_stored (h : r.Represents s) (hs : BufferOk s) (bit : Bit)
    (hfill : r.fill ≠ 15) : r.FeedsWith s bit := by
  have hlt : r.fill < 16 := h.fill_lt
  have hcursor : s.bitIndex = 16 * r.accepted + r.fill := h.cursor
  rw [ShiftReg.FeedsWith, ShiftReg.feed_stored hfill]
  refine ⟨_, execFeed_stored (by omega), .of_window ?_ ?_ ?_ h.attempts h.context, rfl⟩
  · show r.fill + 1 < 16
    omega
  · show s.bitIndex + 1 = 16 * r.accepted + (r.fill + 1)
    omega
  · exact h.window_storeBit hs bit

/-- After a failed check the shift of the window drops its oldest bit, as the next shift of `SR` will (R118). -/
theorem ShiftReg.Represents.feed_failed (h : r.Represents s) (hs : BufferOk s) (bit : Bit)
    (hfill : r.fill = 15)
    (hv : verify (hiByte (shiftIn r.sr bit)) (loByte (shiftIn r.sr bit)) = false) :
    r.FeedsWith s bit := by
  have hcursor : s.bitIndex = 16 * r.accepted + r.fill := h.cursor
  obtain ⟨hgate, hp, hc⟩ := h.checked_bytes hs bit hfill
  rw [ShiftReg.FeedsWith, ShiftReg.feed_failed hfill hv]
  refine ⟨_, execFeed_failed hgate hp hc hv, .of_window (Nat.lt_succ_self 15) ?_ ?_ ?_ h.context, rfl⟩
  · show s.bitIndex = 16 * r.accepted + 15
    omega
  · show Memory.read16 (s.storeBit bit).slide.buf (2 * r.accepted) = shiftIn r.sr bit <<< 1
    rw [slide_storeBit_buf bit hgate, h.div_mod.1,
      Memory.read16_shiftWindow _ 1 (Memory.setBit_wf _ bit hs.canonical), h.window_complete hs bit hfill]
  · exact congrArg (· + 1) h.attempts

/-- After an accepted word the next window is fresh: it lies beyond `BLEN`, by R22 (a) (R119). -/
theorem ShiftReg.Represents.feed_accepted (h : r.Represents s) (hs : BufferOk s) (hok : SessionOk s)
    (bit : Bit) (hfill : r.fill = 15)
    (hv : verify (hiByte (shiftIn r.sr bit)) (loByte (shiftIn r.sr bit)) = true) :
    r.FeedsWith s bit := by
  have hcursor : s.bitIndex = 16 * r.accepted + r.fill := h.cursor
  have hreach : s.blen ≤ 16 * (s.bitIndex / 16 + 1) := hok.blen_le
  have hlen : (s.bitIndex + 1) / 8 = 2 * (r.accepted + 1) := by omega
  obtain ⟨hgate, hp, hc⟩ := h.checked_bytes hs bit hfill
  rw [ShiftReg.FeedsWith, ShiftReg.feed_accepted hfill hv (Prod.eta _).symm, ← h.context, ← hlen]
  refine ⟨_, execFeed_accepted hgate hp hc hv, .of_window (Nat.zero_lt_succ 15) ?_ ?_ rfl rfl, rfl⟩
  · show s.bitIndex + 1 = 16 * (r.accepted + 1) + 0
    omega
  · show Memory.read16 (s.storeBit bit).buf (2 * (r.accepted + 1)) = shiftIn r.sr bit <<< 16
    rw [BitVec.shiftLeft_eq_zero (Nat.le_refl 16)]
    refine read16_eq_zero (bufferOk_storeBit hs bit) ?_
    rw [State.storeBit_blen]
    omega
end Represents

/-- `FEED` and its shift-register form move together from every state with the invariants (R122). -/
theorem ShiftReg.Represents.feed {r : ShiftReg} {s : State} (h : r.Represents s) (hs : BufferOk s)
    (hok : SessionOk s) (bit : Bit) : r.FeedsWith s bit := by
  by_cases hfill : r.fill = 15
  · cases hv : verify (hiByte (shiftIn r.sr bit)) (loByte (shiftIn r.sr bit)) with
    | false => exact h.feed_failed hs bit hfill hv
    | true => exact h.feed_accepted hs hok bit hfill hv
  · exact h.feed_stored hs bit hfill

/-- The registers of a fresh session. -/
def ShiftReg.cleared : ShiftReg := ⟨0, 0, 0, 0, Context.fresh⟩

theorem represents_cleared : ShiftReg.cleared.Represents State.reset :=
  .of_window (by decide) rfl rfl rfl rfl

/-- Settles O43: one case for each end of `FEED` (`ShiftReg.Represents.feed`), and an empty window at reset. -/
theorem feedRefinesTheShiftRegister : Obligations.FeedRefinesTheShiftRegister :=
  ⟨fun _ _ b hs hok h => h.feed hs hok b, represents_cleared⟩

end Sys2Proof.Machine
end

section
/-! Runs of `FEED` commands from reset as runs of the shift register (R66, R122): one bit for ever resolves
nothing (R121), and a spurious first bit is shifted out by the seventeenth (R126). -/

namespace Sys2Proof.Machine

/-! ## Runs -/

/-- The registers after a string of bits (R66, R122). -/
def ShiftReg.feeds (r : ShiftReg) (bits : List Bit) : ShiftReg :=
  bits.foldl (fun r b => (r.feed Config.params b).1) r

theorem ShiftReg.feeds_append (r : ShiftReg) (as bs : List Bit) :
    r.feeds (as ++ bs) = (r.feeds as).feeds bs := List.foldl_append

/-- Registers represent a state that has the invariants: what every `FEED` keeps. -/
structure ShiftReg.Tracks (r : ShiftReg) (s : State) : Prop where
  ok : BufferSessionOk s
  represents : r.Represents s

theorem ofSession_represents (r : ShiftReg) : OfSession r.Represents := by
  intro s t hsession h
  have hcursor : t.bitIndex = s.bitIndex := congrArg Session.bitIndex hsession
  have hbuf : t.buf = s.buf := congrArg Session.buf hsession
  have hattempts : t.alignAttempts = s.alignAttempts := congrArg Session.alignAttempts hsession
  have hctx : t.ctx = s.ctx := congrArg Session.ctx hsession
  constructor
  case fill_lt => exact h.fill_lt
  case cursor => rw [hcursor]; exact h.cursor
  case window => rw [hbuf, State.woff, hcursor]; exact h.window
  case attempts => rw [hattempts]; exact h.attempts
  case context => rw [hctx]; exact h.context

theorem tracks_cleared (beats : List PortBeat) :
    ShiftReg.cleared.Tracks (State.reset.presented beats) where
  ok := ofSession_bufferSessionOk (s := State.reset) rfl
    ⟨bufferOk_reset, acceptedOk_reset, attemptsContextOk_reset⟩
  represents := ofSession_represents _ (s := State.reset) rfl represents_cleared

/-- One presented `FEED`: the registers follow the state, and its events are theirs. -/
theorem ShiftReg.Tracks.step {r : ShiftReg} {s : State} {bit : Bit} {rest : List Bit} (h : r.Tracks s)
    (hport : s.port = feedBeats (bit :: rest)) :
    ∃ t, step s = .next t ∧ t.port = feedBeats rest ∧ (r.feed Config.params bit).1.Tracks t ∧
      t.events = (r.feed Config.params bit).2 := by
  have htaken := State.taking_session s (feedBeats rest)
  have hok := ofSession_bufferSessionOk htaken h.ok
  obtain ⟨t, hexec, hrep, hevents⟩ :=
    (ofSession_represents r htaken h.represents).feed hok.1 (sessionOk_iff.mpr hok.2) bit
  obtain ⟨u, heff, hsession⟩ := exec_effect hexec
  have hok' := ofSession_bufferSessionOk hsession (bufferSessionOk_of_effect rfl hok heff)
  refine ⟨t, ?_, port_of_exec hexec, ⟨hok', hrep⟩, hevents⟩
  rw [step_of_fetched (by rw [hport]; exact decodePort_feed bit (feedBeats rest))]
  exact hexec

/-- A run and one step more. -/
theorem run_snoc {s t u : State} {n : Nat} (hrun : run n s = .next t) (hstep : step t = .next u) :
    run (n + 1) s = .next u := by
  rw [run_add n 1 hrun, run_succ_of_next 0 hstep, run_zero]

/-- Every run over the first bits of a stream from reset: the registers run over the same bits. -/
theorem run_tracked {bits : List Bit} {n : Nat} (hn : n ≤ bits.length) :
    ∃ t, run n (State.reset.presented (feedBeats bits)) = .next t ∧ t.port = feedBeats (bits.drop n) ∧
      (ShiftReg.cleared.feeds (bits.take n)).Tracks t := by
  induction n with
  | zero => exact ⟨_, run_zero _, rfl, tracks_cleared _⟩
  | succ n ih =>
    obtain ⟨s, hrun, hport, hs⟩ := ih (by omega)
    rw [List.drop_eq_getElem_cons hn] at hport
    obtain ⟨t, hstep, hport', ht, -⟩ := hs.step hport
    refine ⟨t, run_snoc hrun hstep, hport', ?_⟩
    rw [List.take_add_one, List.getElem?_eq_getElem hn, ShiftReg.feeds_append]
    exact ht

/-- Bits that complete no word are shifted in and counted (R116). -/
theorem ShiftReg.feeds_stored {r : ShiftReg} {bits : List Bit} (h : r.fill + bits.length ≤ 15) :
    r.feeds bits = { r with sr := bits.foldl shiftIn r.sr, fill := r.fill + bits.length } := by
  induction bits generalizing r with
  | nil => rfl
  | cons bit bits ih =>
    rw [List.length_cons] at h ⊢
    have hfill : r.fill ≠ 15 := by omega
    have hcount : r.fill + 1 + bits.length = r.fill + (bits.length + 1) := by omega
    show (r.feed Config.params bit).1.feeds bits = _
    rw [ShiftReg.feed_stored hfill, ih (by rw [hcount]; exact h), hcount]
    rfl

/-- The registers one bit before the end of the first word. -/
theorem feeds_fifteen {bits : List Bit} (h : bits.length = 15) :
    ShiftReg.cleared.feeds bits = ⟨bits.foldl shiftIn 0, 15, 0, 0, Context.fresh⟩ := by
  have hfill : ShiftReg.cleared.fill + bits.length = 15 := by rw [h]; rfl
  rw [ShiftReg.feeds_stored (Nat.le_of_eq hfill), hfill]
  rfl

/-! ## One bit for ever -/

/-- Sixteen equal bits. -/
def constWord (b : Bit) : Word16 := if b then 0xFFFF#16 else 0x0000#16

/-- Neither of the two windows of equal bits is valid (R54). -/
theorem verify_constWord (b : Bit) : verify (hiByte (constWord b)) (loByte (constWord b)) = false := by
  cases b <;> decide

/-- From the fifteenth bit on the registers wait for the last bit of a word, nothing is accepted, and the next bit
makes a window of equal bits. -/
theorem feeds_replicate (b : Bit) (k : Nat) :
    ∃ sr, ShiftReg.cleared.feeds (List.replicate (15 + k) b) = ⟨sr, 15, 0, k, Context.fresh⟩ ∧
      shiftIn sr b = constWord b := by
  induction k with
  | zero =>
    have hfifteen := feeds_fifteen (bits := List.replicate 15 b) List.length_replicate
    exact ⟨_, hfifteen, by cases b <;> rfl⟩
  | succ k ih =>
    obtain ⟨sr, hsr, hnext⟩ := ih
    have hbad : verify (hiByte (shiftIn sr b)) (loByte (shiftIn sr b)) = false := by
      rw [hnext]
      exact verify_constWord b
    have hfeed := ShiftReg.feed_failed (r := ⟨sr, 15, 0, k, Context.fresh⟩) rfl hbad
    refine ⟨constWord b, ?_, by cases b <;> rfl⟩
    rw [← Nat.add_assoc, List.replicate_succ', ShiftReg.feeds_append, hsr]
    show (ShiftReg.feed Config.params ⟨sr, 15, 0, k, Context.fresh⟩ b).1 = _
    rw [hfeed, hnext]

/-- Settles O40: the registers of a constant stream (`feeds_replicate`) are those of the state (`run_tracked`). -/
theorem constantInputNeverResolves : Obligations.ConstantInputNeverResolves := by
  intro b n hn
  obtain ⟨k, rfl⟩ := Nat.exists_eq_add_of_le hn
  obtain ⟨t, hrun, -, ht⟩ := run_tracked (bits := List.replicate (15 + k) b) (n := 15 + k) (by simp)
  obtain ⟨sr, hsr, -⟩ := feeds_replicate b k
  rw [List.take_of_length_le (by simp), hsr] at ht
  have hctx : t.ctx = Context.fresh := ht.represents.context
  refine ⟨t, hrun, ?_, ht.represents.cursor, hctx, ?_⟩
  · rw [Nat.add_sub_cancel_left]
    exact ht.represents.attempts
  · rw [exec_readmsg, hctx, materialise_fresh]

/-! ## One spurious bit -/

/-- The registers of a sound stream are those of a state that no failed check has touched (R112). -/
theorem tracks_streamedTo {bs : List Byte} (hbs : Smooth bs) {n : Nat} (hn : n ≤ 8 * bs.length) :
    ∃ t, StreamedTo bs n t ∧ (ShiftReg.cleared.feeds ((bitsOf bs).take n)).Tracks t := by
  obtain ⟨t, hrun, ht⟩ := run_streamedTo hbs hn
  obtain ⟨u, hrun', -, hu⟩ := run_tracked (bits := bitsOf bs) (n := n) (by rwa [bitsOf_length])
  obtain rfl : t = u := Host.Outcome.next.inj (hrun.symm.trans hrun')
  exact ⟨t, ht, hu⟩

/-- The first bits of an encoding after a spurious one, up to the check that fails (R126). -/
def slippedBits (x : Bit) : List Bit := x :: (bitsOf [0x80, 0xFE]).take 14

theorem feeds_slippedBits (x : Bit) :
    ShiftReg.cleared.feeds (slippedBits x) =
      ⟨if x then 0x603F else 0x203F, 15, 0, 0, Context.fresh⟩ := by
  rw [feeds_fifteen rfl]
  cases x <;> rfl

/-- The sixteenth bit completes the window `40 7F` or `C0 7F`, which is not valid (R126). -/
theorem feed_slipped (x : Bit) :
    ShiftReg.feed Config.params ⟨if x then 0x603F else 0x203F, 15, 0, 0, Context.fresh⟩ true =
      (⟨if x then 0xC07F else 0x407F, 15, 0, 1, Context.fresh⟩,
        [.bitObserved true, .diagnostic .checksumMismatch (if x then 0xC0 else 0x40) 0x7F]) := by
  cases x
  · exact ShiftReg.feed_failed rfl (by decide)
  · exact ShiftReg.feed_failed rfl (by decide)

/-- The position word of position 0 leaves the same registers whatever attempts were pending and whatever bit
leaves `SR` (R119). -/
theorem feed_firstWord {sr : Word16} {bit : Bit} (attempts : Nat) (h : shiftIn sr bit = 0x80FE#16) :
    (ShiftReg.feed Config.params ⟨sr, 15, 0, attempts, Context.fresh⟩ bit).1 =
      ⟨0x80FE, 0, 1, 0, (interpret Config.params Context.fresh 0x80 0xFE 2).1⟩ := by
  have hhigh : hiByte (shiftIn sr bit) = 0x80#8 := by rw [h]; rfl
  have hlow : loByte (shiftIn sr bit) = 0xFE#8 := by rw [h]; rfl
  rw [ShiftReg.feed_accepted rfl (by rw [hhigh, hlow]; decide) (Prod.eta _).symm, hhigh, hlow, h]
  rfl

/-- The first word of an encoding is complete on the seventeenth bit as it is on the sixteenth without the spurious
one (R126). -/
theorem feeds_spurious_firstWord (x : Bit) :
    ShiftReg.cleared.feeds (x :: bitsOf [0x80, 0xFE]) = ShiftReg.cleared.feeds (bitsOf [0x80, 0xFE]) := by
  have hspurious : x :: bitsOf [0x80, 0xFE] = slippedBits x ++ [true, false] := rfl
  have hsound : bitsOf [0x80, 0xFE] = (bitsOf [0x80, 0xFE]).take 15 ++ [false] := rfl
  rw [hspurious, hsound, ShiftReg.feeds_append, ShiftReg.feeds_append, feeds_slippedBits, feeds_fifteen rfl]
  show (ShiftReg.feed Config.params (ShiftReg.feed Config.params _ true).1 false).1 =
    (ShiftReg.feed Config.params _ false).1
  rw [feed_slipped, feed_firstWord 1 (by cases x <;> rfl), feed_firstWord 0 (by rfl)]

/-- From there on the spurious bit makes no difference. -/
theorem feeds_spurious (x : Bit) (rest : List Byte) {n : Nat} (hn : 16 ≤ n) :
    ShiftReg.cleared.feeds ((x :: bitsOf (0x80 :: 0xFE :: rest)).take (n + 1)) =
      ShiftReg.cleared.feeds ((bitsOf (0x80 :: 0xFE :: rest)).take n) := by
  have hsplit : (bitsOf (0x80 :: 0xFE :: rest)).take n =
      bitsOf [0x80, 0xFE] ++ (bitsOf rest).take (n - 16) := by
    rw [show 0x80 :: 0xFE :: rest = [0x80, 0xFE] ++ rest from rfl, bitsOf_append, List.take_append,
      List.take_of_length_le hn]
    rfl
  rw [List.take_succ_cons, hsplit, ← List.cons_append, ShiftReg.feeds_append, feeds_spurious_firstWord,
    ← ShiftReg.feeds_append]

/-- The sixteenth step of a stream with a spurious first bit. -/
theorem run_spurious_sixteen (x : Bit) (rest : List Byte) :
    ∃ u, run 16 (State.reset.presented (feedBeats (x :: bitsOf (0x80 :: 0xFE :: rest)))) = .next u ∧
      u.alignAttempts = 1 ∧
      u.events = [.bitObserved true, .diagnostic .checksumMismatch (if x then 0xC0 else 0x40) 0x7F] := by
  have hlong : 15 ≤ (x :: bitsOf (0x80 :: 0xFE :: rest)).length := by
    rw [List.length_cons, bitsOf_length, List.length_cons, List.length_cons]
    omega
  have hfirst : (x :: bitsOf (0x80 :: 0xFE :: rest)).take 15 = slippedBits x := rfl
  obtain ⟨s, hrun, hport, hs⟩ := run_tracked hlong
  obtain ⟨u, hstep, -, hu, hevents⟩ := hs.step (bit := true) (rest := false :: bitsOf rest) hport
  rw [hfirst, feeds_slippedBits, feed_slipped] at hu hevents
  exact ⟨u, run_snoc hrun hstep, hu.represents.attempts, hevents⟩

/-- From the seventeenth step on the state has the registers of a state of the sound stream, one step earlier. -/
theorem run_spurious {x : Bit} {rest : List Byte} (hbs : Smooth (0x80 :: 0xFE :: rest)) {n : Nat} (hn : 16 ≤ n)
    (hlen : n ≤ 8 * (0x80 :: 0xFE :: rest : List Byte).length) :
    ∃ t u, run (1 + n) (State.reset.presented (feedBeats (x :: bitsOf (0x80 :: 0xFE :: rest)))) = .next t ∧
      StreamedTo (0x80 :: 0xFE :: rest) n u ∧ t.alignAttempts = u.alignAttempts ∧ t.ctx = u.ctx := by
  obtain ⟨u, hstreamed, hu⟩ := tracks_streamedTo hbs hlen
  rw [← bitsOf_length] at hlen
  obtain ⟨t, hrun, -, ht⟩ := run_tracked (bits := x :: bitsOf (0x80 :: 0xFE :: rest)) (n := n + 1)
    (Nat.succ_le_succ hlen)
  rw [feeds_spurious x rest hn] at ht
  rw [Nat.add_comm 1 n]
  exact ⟨t, u, hrun, hstreamed, ht.represents.attempts.trans hu.represents.attempts.symm,
    ht.represents.context.trans hu.represents.context.symm⟩

/-- An encoding of a message that is not empty begins with the position word of position 0 (R53). -/
theorem framesFrom_zero_eq {msg : List Byte} (h : msg ≠ []) :
    ∃ rest, framesFrom 0 msg = 0x80 :: 0xFE :: rest := by
  obtain ⟨v, msg, rfl⟩ := List.exists_cons_of_ne_nil h
  exact ⟨_, rfl⟩

/-- Settles O42: the failed check by `run_spurious_sixteen`; after it the registers are those of the sound stream
(`run_spurious`), whose states and message are known (O41). -/
theorem oneSpuriousBitIsRecovered : Obligations.OneSpuriousBitIsRecovered := by
  intro msg out e x hlen hne hmsg he hout
  obtain rfl := eq_framesFrom_of_response hlen he hout
  have hsmooth := smooth_framesFrom hlen hmsg
  have hbits : 32 * msg.length = 8 * (framesFrom 0 msg).length := by rw [framesFrom_length]; omega
  have hmessage := (decodeBatch_framesFrom Config.params hlen hmsg).1
  have hpos : 0 < msg.length := List.length_pos_iff.mpr hne
  obtain ⟨rest, hframes⟩ := framesFrom_zero_eq hne
  rw [hframes] at hsmooth hbits hmessage ⊢
  refine ⟨run_spurious_sixteen x rest, fun n hn hle => ?_, ?_⟩
  · obtain ⟨m, rfl⟩ := Nat.exists_eq_add_of_le (Nat.le_trans (by decide : 1 ≤ 17) hn)
    obtain ⟨t, u, hrun, hu, hattempts, -⟩ := run_spurious (x := x) hsmooth (n := m) (by omega) (by omega)
    exact ⟨t, hrun, hattempts.trans hu.attempts⟩
  · obtain ⟨t, u, hrun, hu, -, hctx⟩ := run_spurious (x := x) hsmooth (n := 32 * msg.length) (by omega) (by omega)
    rw [hbits] at hu
    refine ⟨t, hrun, ?_⟩
    rw [exec_readmsg, hctx, ctx_of_streamedTo_end hsmooth hu, ← decodeBatch_message, hmessage]

end Sys2Proof.Machine
end

section
/-! Conditions and events (R130 to R141): what each instruction hands out, said once, and which conditions can be
among it. -/

namespace Sys2Proof.Machine

/-! ## The event of a word -/

/-- What a word of payload `p` and checksum `c` can report: a resolved field or one of the three recoverable
conditions, `ChecksumMismatch` for an invalid word only (R96 to R102). -/
inductive WordEvent (p c : Byte) : Event → Prop where
  /-- A position accepted or a byte recorded (R99, R101). -/
  | resolved (kind : FieldKind) (value : Byte) : WordEvent p c (.fieldResolved kind value p c)
  /-- The word is discarded (R98). -/
  | mismatch (invalid : verify p c = false) : WordEvent p c (.diagnostic .checksumMismatch p c)
  /-- The position is beyond the bound (R100). -/
  | overflow : WordEvent p c (.diagnostic .positionOverflow p c)
  /-- No position is pending (R102). -/
  | unsolicited : WordEvent p c (.diagnostic .unsolicitedValue p c)

/-- Every exit of the interpretation step reports one event of its word (R134). -/
theorem interpret_wordEvent (P : Params) (ctx : Context) (p c : Byte) (len : Nat) :
    ∃ ctx' e, interpret P ctx p c len = (ctx', [e]) ∧ WordEvent p c e := by
  rcases interpret_cases P ctx p c len with
    ⟨hv, -, heq⟩ | ⟨-, -, -, heq⟩ | ⟨-, -, -, heq⟩ | ⟨-, -, q, -, heq⟩ | ⟨-, -, -, heq⟩
  · exact ⟨_, _, heq, .mismatch hv⟩
  · exact ⟨_, _, heq, .resolved _ _⟩
  · exact ⟨_, _, heq, .overflow⟩
  · exact ⟨_, _, heq, .resolved _ _⟩
  · exact ⟨_, _, heq, .unsolicited⟩

/-- Every event of the pairs is the event of one of them (R104). -/
theorem interpretPairs_wordEvent (P : Params) (len : Nat) (ctx : Context) (d : List Byte) :
    ∀ e ∈ (interpretPairs P len ctx d).2, ∃ p c, WordEvent p c e := by
  match d with
  | [] => simp
  | [b] => simp
  | p :: c :: rest =>
    obtain ⟨ctx', e, he, hword⟩ := interpret_wordEvent P ctx p c len
    rw [interpretPairs_cons, he]
    rintro e' (_ | ⟨_, hmem⟩)
    · exact ⟨p, c, hword⟩
    · exact interpretPairs_wordEvent P len _ rest e' hmem

/-- A word is accepted exactly when it is not discarded (R96, R98). -/
theorem accepted_iff_not_discarded {ctx : Context} {p c : Byte} :
    verify p c = true ∨ trusted ctx p = true ↔ ¬ (verify p c = false ∧ trusted ctx p = false) := by
  simp only [← Bool.not_eq_true, not_and_or, not_not]

/-- Settles O21: the five exits of the step (`interpret_cases`), each with the one event it appends; the guard of
each decides all three conditions, because the guards exclude one another. -/
theorem oneConditionForEachWord : Obligations.OneConditionForEachWord := by
  intro P ctx p c len
  simp only [← toNat_posOf, ← isPos_iff, ← isPos_eq_false_iff]
  rcases interpret_cases P ctx p c len with
    ⟨hv, ht, heq⟩ | ⟨ha, hp, hb, heq⟩ | ⟨ha, hp, hb, heq⟩ | ⟨hv, hp, q, hq, heq⟩ | ⟨hv, hp, hq, heq⟩ <;>
    refine ⟨_, congrArg Prod.snd heq, ?_⟩
  · simp [hv, ht] -- discarded: `ChecksumMismatch`
  · have hkept := accepted_iff_not_discarded.mp ha -- a position within the bound
    simp [hkept, hp, hb]
  · have hkept := accepted_iff_not_discarded.mp ha -- a position beyond it: `PositionOverflow`
    simp [hkept, ha, hp, hb]
  · simp [hv, hp, hq] -- a value recorded
  · simp [hv, hp, hq] -- a value with no position pending: `UnsolicitedValue`

/-! ## What an instruction hands out -/

/-- The instructions without an event: neither `FEED` nor `DECODE` nor a wire word (R141, log 13). -/
def emitsNothing : Instr → Bool
  | .feed _ | .decode _ | .posw _ _ | .valw _ _ => false
  | .clear | .status | .readmsg | .rev _ | .csum _ | .verify _ _ | .classify _ | .getbit _ | .setbit _ _
  | .shiftwin _ _ | .readbits | .encode _ => true

/-- The response and the events of an instruction that completes, the rows of R141. -/
inductive HandsOut : Instr → Response → List Event → Prop where
  /-- `FEED` away from a word's end (R116). -/
  | stored (bit : Bit) : HandsOut (.feed bit) .empty [.bitObserved bit]
  /-- `FEED` whose check fails (R118). -/
  | failed (bit : Bit) {p c : Byte} (invalid : verify p c = false) :
      HandsOut (.feed bit) .empty [.bitObserved bit, .diagnostic .checksumMismatch p c]
  /-- `FEED` whose check succeeds (R119). -/
  | accepted (bit : Bit) {p c : Byte} {e : Event} (msg : List Sym) (valid : verify p c = true)
      (word : WordEvent p c e) : HandsOut (.feed bit) .empty [.bitObserved bit, e, .messageUpdated msg]
  /-- `POSW` (log 13). -/
  | position {p : Pos} {c : Byte} {e : Event} (word : WordEvent (posPayload p) c e) :
      HandsOut (.posw p c) .empty [e]
  /-- `VALW` (log 13). -/
  | value {v : Pos} {c : Byte} {e : Event} (word : WordEvent (valPayload v) c e) :
      HandsOut (.valw v c) .empty [e]
  /-- `DECODE` (R104). -/
  | decoded (input : List Byte) (msg : List Sym) {es : List Event}
      (words : ∀ e ∈ es, ∃ p c, WordEvent p c e) :
      HandsOut (.decode input) (.message msg) (es ++ [.messageUpdated msg])
  /-- `ENCODE` of a message that is too long (R91). -/
  | tooLong (msg : List Byte) : HandsOut (.encode msg) (.error .messageTooLong msg.length) []
  /-- The other commands, and `ENCODE` of a message that is not too long. -/
  | silent {i : Instr} {r : Response} (hi : emitsNothing i = true) (hr : ∀ k n, r ≠ .error k n) :
      HandsOut i r []

/-- What is handed out is what the meaning ends with. -/
theorem handsOut_of_done {i : Instr} {s t u : State} {r : Response} {es : List Event}
    (h : exec i s = .next t) (hdone : exec i s = u.done r es) (hout : HandsOut i r es) :
    HandsOut i t.response t.events := by
  rw [hdone, State.done_eq_next] at h
  cases h
  exact hout

/-- The three ends of `FEED`, each with its events (R141). -/
theorem feed_handsOut {bit : Bit} {s t : State} (h : exec (.feed bit) s = .next t) :
    HandsOut (.feed bit) t.response t.events := by
  rcases execFeed_cases bit s with
    ⟨-, hdone⟩ | ⟨p, c, -, -, -, hv, hdone⟩ | ⟨p, c, -, -, -, hv, hdone⟩
  · exact handsOut_of_done h hdone (.stored bit)
  · exact handsOut_of_done h hdone (.failed bit hv)
  · obtain ⟨_, e, he, hword⟩ := interpret_wordEvent Config.params s.ctx p c ((s.bitIndex + 1) / 8)
    have hevents : ((s.storeBit bit).interpretWord Config.params p c).2 = [e] := congrArg Prod.snd he
    rw [hevents] at hdone
    exact handsOut_of_done h hdone (.accepted bit _ hv hword)

/-- All that an instruction which answers a next state can have handed out. -/
theorem exec_handsOut {i : Instr} {s t : State} (h : exec i s = .next t) :
    HandsOut i t.response t.events := by
  cases i with
  | feed bit => exact feed_handsOut h
  | posw p c =>
    obtain ⟨_, e, he, hword⟩ := interpret_wordEvent Config.params s.ctx (posPayload p) c (s.bitIndex / 8)
    rw [exec_posw he] at h
    cases h
    exact .position hword
  | valw v c =>
    obtain ⟨_, e, he, hword⟩ := interpret_wordEvent Config.params s.ctx (valPayload v) c (s.bitIndex / 8)
    rw [exec_valw he] at h
    cases h
    exact .value hword
  | decode d => exact handsOut_of_done h rfl (.decoded d _ (interpretPairs_wordEvent _ _ _ d))
  | encode msg =>
    rcases Nat.lt_or_ge Config.maxMsg msg.length with hgt | hle
    · exact handsOut_of_done h (execEncode_of_gt hgt) (.tooLong msg)
    · exact handsOut_of_done h (execEncode_of_le hle) (.silent rfl nofun)
  | getbit j =>
    rcases Nat.lt_or_ge j s.blen with hlt | hge
    · exact handsOut_of_done h (execGetbit_of_lt hlt) (.silent rfl nofun)
    · rw [show exec (.getbit j) s = .refused .badIndex from execGetbit_of_ge hge] at h
      cases h
  | shiftwin a n =>
    rcases Nat.lt_or_ge (nbytes s.blen) (a + 2) with hgt | hle
    · rw [show exec (.shiftwin a n) s = .refused .badIndex from execShiftwin_of_gt hgt] at h
      cases h
    · exact handsOut_of_done h (execShiftwin_of_le hle) (.silent rfl nofun)
  | clear | status | readmsg | rev | csum | verify | classify | setbit | readbits =>
    exact handsOut_of_done h rfl (.silent rfl nofun)

/-! ## The events -/

/-- Settles O34: the three ends of `FEED`. -/
theorem feedEventsInOrder : Obligations.FeedEventsInOrder := by
  intro b s t h
  have hout := exec_handsOut h
  generalize t.response = r, t.events = events at hout ⊢
  cases hout with
  | stored => exact ⟨_, rfl, Nat.zero_le 1, .inl rfl⟩
  | failed _ hv => exact ⟨_, rfl, Nat.le_refl 1, .inr (.inl ⟨_, _, rfl, hv⟩)⟩
  | accepted _ msg hv hword =>
    refine ⟨_, rfl, List.length_filter_le Event.isDiagnostic [_], .inr (.inr ⟨_, msg, rfl, ?_⟩)⟩
    cases hword with
    | resolved kind value => exact .inl ⟨kind, value, _, _, rfl, hv⟩
    | mismatch hinvalid => exact absurd (hv.symm.trans hinvalid) nofun
    | overflow => exact .inr ⟨_, _, hv, .inl rfl⟩
    | unsolicited => exact .inr ⟨_, _, hv, .inr rfl⟩
  | silent hi => cases hi

/-- Settles O35: what is left of the rows of `HandsOut` has no event. -/
theorem otherCommandsEmitNothing : Obligations.OtherCommandsEmitNothing := by
  intro i s t h hfeed hdecode hposw hvalw
  have hout := exec_handsOut h
  generalize t.response = r, t.events = events at hout ⊢
  cases hout with
  | tooLong | silent => rfl
  | stored bit | failed bit | accepted bit => exact absurd rfl (hfeed bit)
  | position => exact absurd rfl (hposw _ _)
  | value => exact absurd rfl (hvalw _ _)
  | decoded input => exact absurd rfl (hdecode input)

/-! ## The conditions -/

/-- A condition that a word reports is one of the three recoverable ones (R130). -/
theorem WordEvent.isRecoverable {p c p' c' : Byte} {k : Condition}
    (h : WordEvent p c (.diagnostic k p' c')) : k.isRecoverable = true := by
  cases h <;> rfl

/-- The recoverable conditions have the codes 2 to 4 (R131). -/
theorem Condition.code_of_isRecoverable {k : Condition} (h : k.isRecoverable = true) :
    2 ≤ k.code ∧ k.code ≤ 4 := by
  cases k with
  | messageTooLong => cases h
  | checksumMismatch | positionOverflow | unsolicitedValue => decide

/-- Every diagnostic handed out is of a recoverable condition (R130, R132). -/
theorem HandsOut.isRecoverable {i : Instr} {r : Response} {es : List Event} {k : Condition} {p c : Byte}
    (h : HandsOut i r es) (hmem : .diagnostic k p c ∈ es) : k.isRecoverable = true := by
  cases h with
  | stored | tooLong | silent => simp at hmem
  | failed =>
    obtain ⟨rfl, -, -⟩ : k = .checksumMismatch ∧ _ := by simpa using hmem
    rfl
  | accepted _ _ _ hword =>
    obtain rfl : Event.diagnostic k p c = _ := by simpa using hmem
    exact hword.isRecoverable
  | position hword | value hword =>
    obtain rfl := List.mem_singleton.mp hmem
    exact hword.isRecoverable
  | decoded _ _ hwords =>
    obtain ⟨_, _, hword⟩ := hwords _ (by simpa using hmem)
    exact hword.isRecoverable

/-- An error is `MessageTooLong` of an `ENCODE`, without an event (R91, R135). -/
theorem HandsOut.error {i : Instr} {r : Response} {es : List Event} {k : Condition} {n : Nat}
    (h : HandsOut i r es) (hr : r = .error k n) : (∃ msg, i = .encode msg) ∧ k = .messageTooLong ∧ es = [] := by
  cases h with
  | tooLong msg =>
    cases hr
    exact ⟨⟨msg, rfl⟩, rfl, rfl⟩
  | silent _ hno => exact absurd hr (hno k n)
  | stored | failed | accepted | position | value | decoded => cases hr

/-- Settles O59: diagnostics by `HandsOut.isRecoverable`; the error is `ENCODE`'s (`HandsOut.error`), which keeps
the session. -/
theorem conditionsKeepTheirKind : Obligations.ConditionsKeepTheirKind := by
  intro i s t h
  have hout := exec_handsOut h
  refine ⟨fun k p c hmem => ?_, fun k n hr => ?_⟩
  · have hrec := hout.isRecoverable hmem
    exact ⟨hrec, k.code_of_isRecoverable hrec⟩
  · obtain ⟨⟨msg, rfl⟩, rfl, hes⟩ := hout.error hr
    exact ⟨rfl, rfl, session_of_keepsSession rfl h, hes⟩

end Sys2Proof.Machine
end
